-- ==== Sys2Proof/Word.lean ====
section
/-! DEFINITION. The machine's words: 16-bit cells, registers and addresses, 8-bit input and output units.

00_scope.md R4, R6, R7: every register, memory cell, instruction word and the pc is a 16-bit value, and
every addition is modulo 2^16 (which is what `+` on `BitVec 16` does). -/

namespace Sys2Proof

/-- A register, a memory cell, an instruction word, an address or the pc: 16 bits (00_scope.md R4, R7). -/
abbrev Word := BitVec 16

/-- An input unit or a console output unit: 8 bits (00_scope.md R5, `INPUT_UNIT_BITS`; log 14). -/
abbrev Byte := BitVec 8

/-- `zext_16` of an 8-bit value (00_scope.md R8). -/
abbrev zext16 (b : Byte) : Word := b.setWidth 16

/-- Bits 7:0 of a word, what OUT and PUTS write (44_trap_and_system.md R214, R216). -/
abbrev lowByte (w : Word) : Byte := w.setWidth 8

end Sys2Proof
end

