-- ==== Sys2Proof/Syntax.lean ====
section
/-! DEFINITION. The instructions: register names, the 16 opcodes, one constructor of `Instr` for each of the 19 rows
of spec/opcode_table.json, and the assembly notation of 30_encoding.md R102 to R105. -/

namespace Sys2Proof

/-- The eight general registers R0 to R7 (10_state.md R20). -/
inductive Reg where
  | r0 | r1 | r2 | r3 | r4 | r5 | r6 | r7
deriving DecidableEq, Repr

/-- The 16 opcodes by their source names (30_encoding.md R96). -/
inductive Opcode where
  | branch | add | load | store | jumpRegister | and | loadRegister | storeRegister
  | returnFromInterrupt | not | loadIndirect | storeIndirect | jump | reserved | loadEffectiveAddress | trap
deriving DecidableEq, Repr

/-- A decoded instruction (30_encoding.md R85 to R97). An offset or immediate is its unsigned field; the executor
sign-extends it. The operands called `ign…` are the bits the format ignores, kept so that re-encoding gives the word
back (30_encoding.md R98; log 10). The types carry every bound, so every term is a legal instruction (R97: no
encoding is illegal). -/
inductive Instr where
  /-- BR: `nzp` is `ir[11:9]` (43_control.md R190). -/
  | br (nzp : BitVec 3) (off9 : BitVec 9)
  /-- ADD, register form; `ign` is `ir[4:3]` (41_operate.md R140). -/
  | addReg (dr sr1 sr2 : Reg) (ign : BitVec 2)
  /-- ADD, immediate form (41_operate.md R141). -/
  | addImm (dr sr1 : Reg) (imm5 : BitVec 5)
  /-- LD (42_data_movement.md R160). -/
  | ld (dr : Reg) (off9 : BitVec 9)
  /-- ST (42_data_movement.md R170). -/
  | st (sr : Reg) (off9 : BitVec 9)
  /-- JSR, the long flag set (43_control.md R196). -/
  | jsr (off11 : BitVec 11)
  /-- JSRR, the long flag clear; `ignHi` is `ir[10:9]`, `ignLo` is `ir[5:0]` (43_control.md R198). -/
  | jsrr (base : Reg) (ignHi : BitVec 2) (ignLo : BitVec 6)
  /-- AND, register form; `ign` is `ir[4:3]` (41_operate.md R144). -/
  | andReg (dr sr1 sr2 : Reg) (ign : BitVec 2)
  /-- AND, immediate form (41_operate.md R145). -/
  | andImm (dr sr1 : Reg) (imm5 : BitVec 5)
  /-- LDR (42_data_movement.md R164). -/
  | ldr (dr base : Reg) (off6 : BitVec 6)
  /-- STR (42_data_movement.md R174). -/
  | str (sr base : Reg) (off6 : BitVec 6)
  /-- RTI, a no-op; `ign` is `ir[11:0]` (44_trap_and_system.md R230). -/
  | rti (ign : BitVec 12)
  /-- NOT; `ign` is `ir[5:0]` (41_operate.md R148). -/
  | not (dr sr : Reg) (ign : BitVec 6)
  /-- LDI (42_data_movement.md R162). -/
  | ldi (dr : Reg) (off9 : BitVec 9)
  /-- STI (42_data_movement.md R172). -/
  | sti (sr : Reg) (off9 : BitVec 9)
  /-- JMP (RET when `base` is R7); `ignHi` is `ir[11:9]`, `ignLo` is `ir[5:0]` (43_control.md R194). -/
  | jmp (base : Reg) (ignHi : BitVec 3) (ignLo : BitVec 6)
  /-- RESERVED, a no-op; `ign` is `ir[11:0]` (44_trap_and_system.md R232). -/
  | reserved (ign : BitVec 12)
  /-- LEA (42_data_movement.md R166). -/
  | lea (dr : Reg) (off9 : BitVec 9)
  /-- TRAP; `ign` is `ir[11:8]` (44_trap_and_system.md R210). -/
  | trap (vect8 : BitVec 8) (ign : BitVec 4)
deriving DecidableEq, Repr

/-- The assembly forms of 30_encoding.md R103 and the pseudo-instructions of R105. A signed operand is the number
written after `#` (R102), a trap vector the number written after `x`; which numbers may stand there is
`Asm.wellFormed`'s to say. The notation is the spec's own (log 34). -/
inductive Asm where
  | addReg (dr sr1 sr2 : Reg)
  | addImm (dr sr1 : Reg) (imm5 : Int)
  | andReg (dr sr1 sr2 : Reg)
  | andImm (dr sr1 : Reg) (imm5 : Int)
  | not (dr sr : Reg)
  /-- `BRn`, `BRz`, `BRp`, `BRnz`, `BRnp`, `BRzp`, `BRnzp`: a flag is true when its letter is present. -/
  | br (n z p : Bool) (off9 : Int)
  | ld (dr : Reg) (off9 : Int)
  | st (sr : Reg) (off9 : Int)
  | jsr (off11 : Int)
  | jsrr (base : Reg)
  | ldr (dr base : Reg) (off6 : Int)
  | str (sr base : Reg) (off6 : Int)
  | rti
  | ldi (dr : Reg) (off9 : Int)
  | sti (sr : Reg) (off9 : Int)
  | jmp (base : Reg)
  | reserved
  | lea (dr : Reg) (off9 : Int)
  | trap (vector : Nat)
  /-- `.FILL xNNNN`: a data word, no instruction of the hardware. -/
  | fill (value : Nat)
  | ret | nop | getc | out | puts | inp | halt
deriving DecidableEq, Repr

end Sys2Proof
end

