-- ==== Sys2Proof/WellFormed.lean ====
section
/-! DEFINITION. Which terms are well formed.

A decoded instruction needs no check of legality: "every 4-bit opcode and every bitfield combination is structurally
valid" (30_encoding.md R97), and the types of `Instr` carry every bound. What the spec does distinguish is the
CANONICAL instruction, the one an assembly form stands for (R104). An assembly term carries numbers, so it is checked
(R102, R103, R105). -/

namespace Sys2Proof

/-- "The canonical word of an assembly form has every ignored bit 0, except NOT whose bits 5:0 are all 1"
(30_encoding.md R104). A format with no ignored bit is canonical in every word. -/
def Instr.canonical : Instr → Bool
  | .br _ _ => true
  | .addReg _ _ _ ign => ign == 0
  | .addImm _ _ _ => true
  | .ld _ _ => true
  | .st _ _ => true
  | .jsr _ => true
  | .jsrr _ ignHi ignLo => ignHi == 0 && ignLo == 0
  | .andReg _ _ _ ign => ign == 0
  | .andImm _ _ _ => true
  | .ldr _ _ _ => true
  | .str _ _ _ => true
  | .rti ign => ign == 0
  | .not _ _ ign => ign == 0b111111
  | .ldi _ _ => true
  | .sti _ _ => true
  | .jmp _ ignHi ignLo => ignHi == 0 && ignLo == 0
  | .reserved ign => ign == 0
  | .lea _ _ => true
  | .trap _ ign => ign == 0

/-- The same instruction with its ignored bits at their canonical values (30_encoding.md R104). -/
def Instr.canonicalise : Instr → Instr
  | .br nzp off9 => .br nzp off9
  | .addReg dr sr1 sr2 _ => .addReg dr sr1 sr2 0
  | .addImm dr sr1 imm5 => .addImm dr sr1 imm5
  | .ld dr off9 => .ld dr off9
  | .st sr off9 => .st sr off9
  | .jsr off11 => .jsr off11
  | .jsrr base _ _ => .jsrr base 0 0
  | .andReg dr sr1 sr2 _ => .andReg dr sr1 sr2 0
  | .andImm dr sr1 imm5 => .andImm dr sr1 imm5
  | .ldr dr base off6 => .ldr dr base off6
  | .str sr base off6 => .str sr base off6
  | .rti _ => .rti 0
  | .not dr sr _ => .not dr sr 0b111111
  | .ldi dr off9 => .ldi dr off9
  | .sti sr off9 => .sti sr off9
  | .jmp base _ _ => .jmp base 0 0
  | .reserved _ => .reserved 0
  | .lea dr off9 => .lea dr off9
  | .trap vect8 _ => .trap vect8 0

/-- An integer an `n`-bit signed field can hold: `-2^(n-1)` to `2^(n-1) - 1` (30_encoding.md R82). -/
def inSignedRange (n : Nat) (v : Int) : Bool :=
  decide (-(2 ^ (n - 1) : Int) ≤ v) && decide (v < (2 ^ (n - 1) : Int))

/-- An assembly term of 30_encoding.md R102 to R105: each signed operand is a value of its field, a vector has two
hexadecimal digits, a data word four, and a branch names at least one flag ("This spec never writes `BR` without
letters"). -/
def Asm.wellFormed : Asm → Bool
  | .addReg _ _ _ => true
  | .addImm _ _ imm5 => inSignedRange 5 imm5
  | .andReg _ _ _ => true
  | .andImm _ _ imm5 => inSignedRange 5 imm5
  | .not _ _ => true
  | .br n z p off9 => (n || z || p) && inSignedRange 9 off9
  | .ld _ off9 => inSignedRange 9 off9
  | .st _ off9 => inSignedRange 9 off9
  | .jsr off11 => inSignedRange 11 off11
  | .jsrr _ => true
  | .ldr _ _ off6 => inSignedRange 6 off6
  | .str _ _ off6 => inSignedRange 6 off6
  | .rti => true
  | .ldi _ off9 => inSignedRange 9 off9
  | .sti _ off9 => inSignedRange 9 off9
  | .jmp _ => true
  | .reserved => true
  | .lea _ off9 => inSignedRange 9 off9
  | .trap vector => decide (vector < 256)
  | .fill value => decide (value < 65536)
  | .ret => true
  | .nop => true
  | .getc => true
  | .out => true
  | .puts => true
  | .inp => true
  | .halt => true

end Sys2Proof
end

