-- ==== Sys2Proof/Decode.lean ====
section
/-! DEFINITION. The Bitfield Decoder (30_encoding.md): bit slices, `extract`, sign extension, the total decoder, the
encoder written from the same format tables (R85 to R95), the opcode table's masks, and the assembler of R103. -/

namespace Sys2Proof

/-! ## Bit slices, `extract`, sign extension (R6, R80 to R84) -/

/-- `v[lo + len - 1 : lo]` (00_scope.md R6). -/
def slice (v : Word) (lo len : Nat) : BitVec len := v.extractLsb' lo len

/-- `sext_n` as R82 writes it: a field value `f < 2^n`, its bit `n - 1` copied to all higher bits. -/
def sextN (n : Nat) (f : Word) : Word :=
  if f.getLsbD (n - 1) then f ||| ((0xFFFF : Word) <<< n) else f

/-- `extract(instruction, highBitIndex, length, signExtend)` (R80). Its domain is that of R81; the hardware calls it
with the eleven triples of `Field.args` only. -/
def extract (ir : Word) (highBitIndex length : Nat) (signExtend : Bool) : Word :=
  let f := BitVec.ofNat 16 ((ir.toNat >>> (highBitIndex + 1 - length)) % 2 ^ length)
  if signExtend then sextN length f else f

/-- `sext_n` of an operand field held at its own width (R82). -/
def sext {n : Nat} (f : BitVec n) : Word := f.signExtend 16

/-- The thirteen fields of R84. -/
inductive Field where
  | opcode | dr | storeSr | sr1 | immediateFlag | sr2 | imm5 | offset6 | pcOffset9 | conditionBits | longFlag
  | pcOffset11 | trapvect8
deriving DecidableEq, Repr

/-- The arguments of `extract` for each field: high bit, length, sign (R84; positions not pinned by a word of the
source are D2's, log 8). -/
def Field.args : Field → Nat × Nat × Bool
  | .opcode => (15, 4, false)
  | .dr => (11, 3, false)
  | .storeSr => (11, 3, false)
  | .sr1 => (8, 3, false)
  | .immediateFlag => (5, 1, false)
  | .sr2 => (2, 3, false)
  | .imm5 => (4, 5, true)
  | .offset6 => (5, 6, true)
  | .pcOffset9 => (8, 9, true)
  | .conditionBits => (11, 3, false)
  | .longFlag => (11, 1, false)
  | .pcOffset11 => (10, 11, true)
  | .trapvect8 => (7, 8, false)

/-- The field's value in an instruction word, by one call of `extract` (R84). -/
def Field.value (f : Field) (ir : Word) : Word := extract ir f.args.1 f.args.2.1 f.args.2.2

/-! ## Register numbers and opcode numbers -/

/-- The 3-bit number of a register (R84; 10_state.md R20). -/
def Reg.bits : Reg → BitVec 3
  | .r0 => 0b000
  | .r1 => 0b001
  | .r2 => 0b010
  | .r3 => 0b011
  | .r4 => 0b100
  | .r5 => 0b101
  | .r6 => 0b110
  | .r7 => 0b111

/-- The register a 3-bit field names. -/
def Reg.ofBits (b : BitVec 3) : Reg :=
  match b.getLsbD 2, b.getLsbD 1, b.getLsbD 0 with
  | false, false, false => .r0
  | false, false, true => .r1
  | false, true, false => .r2
  | false, true, true => .r3
  | true, false, false => .r4
  | true, false, true => .r5
  | true, true, false => .r6
  | true, true, true => .r7

/-- The opcode number `ir[15:12]` of each opcode (R96; nine of them by row order, log 7). -/
def Opcode.bits : Opcode → BitVec 4
  | .branch => 0b0000
  | .add => 0b0001
  | .load => 0b0010
  | .store => 0b0011
  | .jumpRegister => 0b0100
  | .and => 0b0101
  | .loadRegister => 0b0110
  | .storeRegister => 0b0111
  | .returnFromInterrupt => 0b1000
  | .not => 0b1001
  | .loadIndirect => 0b1010
  | .storeIndirect => 0b1011
  | .jump => 0b1100
  | .reserved => 0b1101
  | .loadEffectiveAddress => 0b1110
  | .trap => 0b1111

/-- The opcode a 4-bit number selects: all 16 are opcodes (R96). -/
def Opcode.ofBits (b : BitVec 4) : Opcode :=
  match b.getLsbD 3, b.getLsbD 2, b.getLsbD 1, b.getLsbD 0 with
  | false, false, false, false => .branch
  | false, false, false, true => .add
  | false, false, true, false => .load
  | false, false, true, true => .store
  | false, true, false, false => .jumpRegister
  | false, true, false, true => .and
  | false, true, true, false => .loadRegister
  | false, true, true, true => .storeRegister
  | true, false, false, false => .returnFromInterrupt
  | true, false, false, true => .not
  | true, false, true, false => .loadIndirect
  | true, false, true, true => .storeIndirect
  | true, true, false, false => .jump
  | true, true, false, true => .reserved
  | true, true, true, false => .loadEffectiveAddress
  | true, true, true, true => .trap

/-- The register named by the three bits of `ir` that start at `lo`. -/
def regAt (ir : Word) (lo : Nat) : Reg := Reg.ofBits (slice ir lo 3)

/-- The opcode of an instruction (30_encoding.md R96). -/
def Instr.opcode : Instr → Opcode
  | .br _ _ => .branch
  | .addReg _ _ _ _ => .add
  | .addImm _ _ _ => .add
  | .ld _ _ => .load
  | .st _ _ => .store
  | .jsr _ => .jumpRegister
  | .jsrr _ _ _ => .jumpRegister
  | .andReg _ _ _ _ => .and
  | .andImm _ _ _ => .and
  | .ldr _ _ _ => .loadRegister
  | .str _ _ _ => .storeRegister
  | .rti _ => .returnFromInterrupt
  | .not _ _ _ => .not
  | .ldi _ _ => .loadIndirect
  | .sti _ _ => .storeIndirect
  | .jmp _ _ _ => .jump
  | .reserved _ => .reserved
  | .lea _ _ => .loadEffectiveAddress
  | .trap _ _ => .trap

/-! ## The decoder -/

/-- `decode(ir)` of R97: total, every word one of the 19 rows. -/
def decode (ir : Word) : Instr :=
  match Opcode.ofBits (slice ir 12 4) with
  | .branch => .br (slice ir 9 3) (slice ir 0 9)
  | .add =>
    if ir.getLsbD 5 then .addImm (regAt ir 9) (regAt ir 6) (slice ir 0 5)
    else .addReg (regAt ir 9) (regAt ir 6) (regAt ir 0) (slice ir 3 2)
  | .load => .ld (regAt ir 9) (slice ir 0 9)
  | .store => .st (regAt ir 9) (slice ir 0 9)
  | .jumpRegister =>
    if ir.getLsbD 11 then .jsr (slice ir 0 11)
    else .jsrr (regAt ir 6) (slice ir 9 2) (slice ir 0 6)
  | .and =>
    if ir.getLsbD 5 then .andImm (regAt ir 9) (regAt ir 6) (slice ir 0 5)
    else .andReg (regAt ir 9) (regAt ir 6) (regAt ir 0) (slice ir 3 2)
  | .loadRegister => .ldr (regAt ir 9) (regAt ir 6) (slice ir 0 6)
  | .storeRegister => .str (regAt ir 9) (regAt ir 6) (slice ir 0 6)
  | .returnFromInterrupt => .rti (slice ir 0 12)
  | .not => .not (regAt ir 9) (regAt ir 6) (slice ir 0 6)
  | .loadIndirect => .ldi (regAt ir 9) (slice ir 0 9)
  | .storeIndirect => .sti (regAt ir 9) (slice ir 0 9)
  | .jump => .jmp (regAt ir 6) (slice ir 9 3) (slice ir 0 6)
  | .reserved => .reserved (slice ir 0 12)
  | .loadEffectiveAddress => .lea (regAt ir 9) (slice ir 0 9)
  | .trap => .trap (slice ir 0 8) (slice ir 8 4)

/-- Why a string of bits or bytes holds no instruction word. No 16-bit word is rejected (R97, R99). -/
inductive DecodeError where
  /-- There is no word: nothing is left. -/
  | noWord
  /-- One byte is left of the two a word has (93_implementation_defined.md U26: a truncated image). -/
  | halfWord
  /-- The bits given are not one 16-bit word (R79: every instruction is exactly one 16-bit word). -/
  | notOneWord
deriving DecidableEq, Repr

/-- The first instruction of a string of image bytes and the rest: an image is big-endian words (20_memory.md R60).
Inside the block there are no bytes; this is the loader's view of a word. -/
def decodeBytes : List Byte → Except DecodeError (Instr × List Byte)
  | [] => .error .noWord
  | [_] => .error .halfWord
  | hi :: lo :: rest => .ok (decode (hi ++ lo), rest)

/-- The instruction whose bits, numbered as spec/opcode_table.json numbers them, are `w` (log 29). -/
def decodeBits (nbits w : Nat) : Except DecodeError Instr :=
  if nbits ≤ 16 ∧ w < 65536 then .ok (decode (BitVec.ofNat 16 w)) else .error .notOneWord

/-- The host's question: what the decoder reads from an instruction whose bits are `w`. -/
def decodeTableWord (nbits w : Nat) : Option Instr :=
  match decodeBits nbits w with
  | .ok i => some i
  | .error _ => none

/-! ## The encoder -/

/-- The word of an instruction, written from the format tables R85 to R95: fields from bit 15 down. -/
def encode : Instr → Word
  | .br nzp off9 => 0b0000#4 ++ nzp ++ off9
  | .addReg dr sr1 sr2 ign => 0b0001#4 ++ dr.bits ++ sr1.bits ++ 0b0#1 ++ ign ++ sr2.bits
  | .addImm dr sr1 imm5 => 0b0001#4 ++ dr.bits ++ sr1.bits ++ 0b1#1 ++ imm5
  | .ld dr off9 => 0b0010#4 ++ dr.bits ++ off9
  | .st sr off9 => 0b0011#4 ++ sr.bits ++ off9
  | .jsr off11 => 0b0100#4 ++ 0b1#1 ++ off11
  | .jsrr base ignHi ignLo => 0b0100#4 ++ 0b0#1 ++ ignHi ++ base.bits ++ ignLo
  | .andReg dr sr1 sr2 ign => 0b0101#4 ++ dr.bits ++ sr1.bits ++ 0b0#1 ++ ign ++ sr2.bits
  | .andImm dr sr1 imm5 => 0b0101#4 ++ dr.bits ++ sr1.bits ++ 0b1#1 ++ imm5
  | .ldr dr base off6 => 0b0110#4 ++ dr.bits ++ base.bits ++ off6
  | .str sr base off6 => 0b0111#4 ++ sr.bits ++ base.bits ++ off6
  | .rti ign => 0b1000#4 ++ ign
  | .not dr sr ign => 0b1001#4 ++ dr.bits ++ sr.bits ++ ign
  | .ldi dr off9 => 0b1010#4 ++ dr.bits ++ off9
  | .sti sr off9 => 0b1011#4 ++ sr.bits ++ off9
  | .jmp base ignHi ignLo => 0b1100#4 ++ ignHi ++ base.bits ++ ignLo
  | .reserved ign => 0b1101#4 ++ ign
  | .lea dr off9 => 0b1110#4 ++ dr.bits ++ off9
  | .trap vect8 ign => 0b1111#4 ++ ign ++ vect8

/-! ## The opcode table -/

/-- A row of spec/opcode_table.json: a word `w` belongs to it iff `w AND mask = pattern` (INDEX.md). -/
structure Row where
  mnemonic : String
  mask : Word
  pattern : Word
deriving DecidableEq, Repr

/-- Whether a word belongs to a row (INDEX.md). -/
def Row.has (r : Row) (w : Word) : Bool := w &&& r.mask == r.pattern

/-- The row an instruction is of. -/
def Instr.row : Instr → Row
  | .br _ _ => ⟨"BR", 0xF000, 0x0000⟩
  | .addReg _ _ _ _ => ⟨"ADD", 0xF020, 0x1000⟩
  | .addImm _ _ _ => ⟨"ADD", 0xF020, 0x1020⟩
  | .ld _ _ => ⟨"LD", 0xF000, 0x2000⟩
  | .st _ _ => ⟨"ST", 0xF000, 0x3000⟩
  | .jsr _ => ⟨"JSR", 0xF800, 0x4800⟩
  | .jsrr _ _ _ => ⟨"JSRR", 0xF800, 0x4000⟩
  | .andReg _ _ _ _ => ⟨"AND", 0xF020, 0x5000⟩
  | .andImm _ _ _ => ⟨"AND", 0xF020, 0x5020⟩
  | .ldr _ _ _ => ⟨"LDR", 0xF000, 0x6000⟩
  | .str _ _ _ => ⟨"STR", 0xF000, 0x7000⟩
  | .rti _ => ⟨"RTI", 0xF000, 0x8000⟩
  | .not _ _ _ => ⟨"NOT", 0xF000, 0x9000⟩
  | .ldi _ _ => ⟨"LDI", 0xF000, 0xA000⟩
  | .sti _ _ => ⟨"STI", 0xF000, 0xB000⟩
  | .jmp _ _ _ => ⟨"JMP", 0xF000, 0xC000⟩
  | .reserved _ => ⟨"RESERVED", 0xF000, 0xD000⟩
  | .lea _ _ => ⟨"LEA", 0xF000, 0xE000⟩
  | .trap _ _ => ⟨"TRAP", 0xF000, 0xF000⟩

/-- The 19 rows, in the table's order. -/
def opcodeTable : List Row := [
  ⟨"BR", 0xF000, 0x0000⟩, ⟨"ADD", 0xF020, 0x1000⟩, ⟨"ADD", 0xF020, 0x1020⟩, ⟨"LD", 0xF000, 0x2000⟩,
  ⟨"ST", 0xF000, 0x3000⟩, ⟨"JSR", 0xF800, 0x4800⟩, ⟨"JSRR", 0xF800, 0x4000⟩, ⟨"AND", 0xF020, 0x5000⟩,
  ⟨"AND", 0xF020, 0x5020⟩, ⟨"LDR", 0xF000, 0x6000⟩, ⟨"STR", 0xF000, 0x7000⟩, ⟨"RTI", 0xF000, 0x8000⟩,
  ⟨"NOT", 0xF000, 0x9000⟩, ⟨"LDI", 0xF000, 0xA000⟩, ⟨"STI", 0xF000, 0xB000⟩, ⟨"JMP", 0xF000, 0xC000⟩,
  ⟨"RESERVED", 0xF000, 0xD000⟩, ⟨"LEA", 0xF000, 0xE000⟩, ⟨"TRAP", 0xF000, 0xF000⟩]

/-! ## The assembler -/

/-- The register number an assembly form writes as a sum (R103). -/
def Reg.num (r : Reg) : Nat := r.bits.toNat

/-- A signed operand "reduced modulo 2 to the power of its width" (R103). -/
def asmField (n : Nat) (v : Int) : Nat := (v % (2 ^ n : Int)).toNat

/-- The word an assembly form stands for, as the sums of R103 and the words of R105 (log 34). -/
def Asm.assemble : Asm → Word
  | .addReg dr sr1 sr2 => BitVec.ofNat 16 (0x1000 + dr.num * 512 + sr1.num * 64 + sr2.num)
  | .addImm dr sr1 imm5 => BitVec.ofNat 16 (0x1020 + dr.num * 512 + sr1.num * 64 + asmField 5 imm5)
  | .andReg dr sr1 sr2 => BitVec.ofNat 16 (0x5000 + dr.num * 512 + sr1.num * 64 + sr2.num)
  | .andImm dr sr1 imm5 => BitVec.ofNat 16 (0x5020 + dr.num * 512 + sr1.num * 64 + asmField 5 imm5)
  | .not dr sr => BitVec.ofNat 16 (0x903F + dr.num * 512 + sr.num * 64)
  | .br n z p off9 => BitVec.ofNat 16 (0x0000 + n.toNat * 2048 + z.toNat * 1024 + p.toNat * 512 + asmField 9 off9)
  | .ld dr off9 => BitVec.ofNat 16 (0x2000 + dr.num * 512 + asmField 9 off9)
  | .st sr off9 => BitVec.ofNat 16 (0x3000 + sr.num * 512 + asmField 9 off9)
  | .jsr off11 => BitVec.ofNat 16 (0x4800 + asmField 11 off11)
  | .jsrr base => BitVec.ofNat 16 (0x4000 + base.num * 64)
  | .ldr dr base off6 => BitVec.ofNat 16 (0x6000 + dr.num * 512 + base.num * 64 + asmField 6 off6)
  | .str sr base off6 => BitVec.ofNat 16 (0x7000 + sr.num * 512 + base.num * 64 + asmField 6 off6)
  | .rti => 0x8000
  | .ldi dr off9 => BitVec.ofNat 16 (0xA000 + dr.num * 512 + asmField 9 off9)
  | .sti sr off9 => BitVec.ofNat 16 (0xB000 + sr.num * 512 + asmField 9 off9)
  | .jmp base => BitVec.ofNat 16 (0xC000 + base.num * 64)
  | .reserved => 0xD000
  | .lea dr off9 => BitVec.ofNat 16 (0xE000 + dr.num * 512 + asmField 9 off9)
  | .trap vector => BitVec.ofNat 16 (0xF000 + vector)
  | .fill value => BitVec.ofNat 16 value
  | .ret => 0xC1C0
  | .nop => 0x0000
  | .getc => 0xF020
  | .out => 0xF021
  | .puts => 0xF022
  | .inp => 0xF023
  | .halt => 0xF025

/-- The field of a BR that its letters make: N at bit 2, Z at bit 1, P at bit 0 (R89, R103). -/
def letterBits (n z p : Bool) : BitVec 3 := BitVec.ofBool n ++ BitVec.ofBool z ++ BitVec.ofBool p

/-- The instruction an assembly form means, in canonical form (R103, R104, R105); a data word means none. -/
def Asm.instr : Asm → Option Instr
  | .addReg dr sr1 sr2 => some (.addReg dr sr1 sr2 0)
  | .addImm dr sr1 imm5 => some (.addImm dr sr1 (BitVec.ofInt 5 imm5))
  | .andReg dr sr1 sr2 => some (.andReg dr sr1 sr2 0)
  | .andImm dr sr1 imm5 => some (.andImm dr sr1 (BitVec.ofInt 5 imm5))
  | .not dr sr => some (.not dr sr 0b111111)
  | .br n z p off9 => some (.br (letterBits n z p) (BitVec.ofInt 9 off9))
  | .ld dr off9 => some (.ld dr (BitVec.ofInt 9 off9))
  | .st sr off9 => some (.st sr (BitVec.ofInt 9 off9))
  | .jsr off11 => some (.jsr (BitVec.ofInt 11 off11))
  | .jsrr base => some (.jsrr base 0 0)
  | .ldr dr base off6 => some (.ldr dr base (BitVec.ofInt 6 off6))
  | .str sr base off6 => some (.str sr base (BitVec.ofInt 6 off6))
  | .rti => some (.rti 0)
  | .ldi dr off9 => some (.ldi dr (BitVec.ofInt 9 off9))
  | .sti sr off9 => some (.sti sr (BitVec.ofInt 9 off9))
  | .jmp base => some (.jmp base 0 0)
  | .reserved => some (.reserved 0)
  | .lea dr off9 => some (.lea dr (BitVec.ofInt 9 off9))
  | .trap vector => some (.trap (BitVec.ofNat 8 vector) 0)
  | .fill _ => none
  | .ret => some (.jmp .r7 0 0)
  | .nop => some (.br 0b000 0)
  | .getc => some (.trap 0x20 0)
  | .out => some (.trap 0x21 0)
  | .puts => some (.trap 0x22 0)
  | .inp => some (.trap 0x23 0)
  | .halt => some (.trap 0x25 0)

end Sys2Proof
end

