-- ==== Sys2Proof/Config.lean ====
section
/-! DEFINITION. What an implementation fixes: the constants the source gives (00_scope.md R4) and the five
open parameters (00_scope.md R5; 92_eei_decisions.md, "Open parameters in one place").

The open parameters are plain data that `State` carries in its field `config`: a statement about every state
is then a statement for every value of them (log 2). -/

namespace Sys2Proof

/-- `PC_RESET` (00_scope.md R4). -/
def pcReset : Word := 0x3000

/-- NEGATIVE as a 3-bit mask facing `ir[11:9]` (10_state.md R24, R26; PRESUMED, log 6). -/
def flN : BitVec 3 := 0b100

/-- ZERO as a 3-bit mask facing `ir[11:9]`; its place is pinned by the word `0x0402` (10_state.md R24, R26). -/
def flZ : BitVec 3 := 0b010

/-- POSITIVE as a 3-bit mask facing `ir[11:9]` (10_state.md R24, R26; PRESUMED, log 6). -/
def flP : BitVec 3 := 0b001

/-- The five open parameters of 00_scope.md R5, fixed for one build of the hardware. The default of each field is
the spec's own default (logs 3, 4, 5). -/
structure Config where
  /-- `KBSR_ADDRESS`: where the keyboard status register is read. -/
  kbsrAddress : Word := 0xFE00
  /-- `KBDR_ADDRESS`: where the keyboard data register is read. -/
  kbdrAddress : Word := 0xFE02
  /-- `COND_RESET`: the condition code after reset. -/
  condReset : BitVec 3 := 0b010
  /-- `IN_PROMPT`: what the IN service writes before it reads (default: `Enter a character: `). -/
  inPrompt : List Byte :=
    [0x45, 0x6E, 0x74, 0x65, 0x72, 0x20, 0x61, 0x20, 0x63, 0x68, 0x61, 0x72, 0x61, 0x63, 0x74, 0x65, 0x72, 0x3A, 0x20]
  /-- `HALT_NOTICE`: what the HALT service writes (default: `HALT` and a line feed). -/
  haltNotice : List Byte := [0x48, 0x41, 0x4C, 0x54, 0x0A]
deriving DecidableEq, Repr

/-- The legal parameter values (00_scope.md R5: "The two I/O addresses must be different from each other";
10_state.md R40: `COND_RESET` is `0b010` or `0b000`). -/
def Config.legal (c : Config) : Bool :=
  c.kbsrAddress != c.kbdrAddress && (c.condReset == 0b010 || c.condReset == 0b000)

/-- The spec's defaults (00_scope.md R5). -/
def Config.default : Config := {}

end Sys2Proof
end

