-- ==== Sys2Proof/Machine/State.lean ====
section
/-! DEFINITION. The state of the engine as plain data (10_state.md; INVENTORY.md, State), the reasons a step may answer
no next state, and the state after reset (10_state.md R40; 70_reset_and_hazards.md R260). -/

namespace Sys2Proof.Machine

/-- The eight general registers, 16 bits each, no bank, no hardwired register (10_state.md R20). -/
structure Regs where
  r0 : Word
  r1 : Word
  r2 : Word
  r3 : Word
  r4 : Word
  r5 : Word
  r6 : Word
  r7 : Word
deriving DecidableEq, Repr

/-- The 65536 cells of 16 bits, the unit of addressing (20_memory.md R50), as a list of (address, cell) pairs in the
canonical form `Memory.wf` (log 1). -/
abbrev Memory := List (Nat × Word)

/-- Where a cycle holds for an input unit (00_scope.md R10; 40_instruction_cycle.md R125), with what the rest of the
cycle needs; log 11. -/
inductive Hold where
  /-- The fetch read of an instruction at `KBDR_ADDRESS`. -/
  | fetch
  /-- The data read of LD, LDR or LDI into `dr`. -/
  | load (dr : Reg)
  /-- The pointer read of LDI into `dr`. -/
  | ldiPointer (dr : Reg)
  /-- The pointer read of STI from `sr`. -/
  | stiPointer (sr : Reg)
  /-- The read of the cell at `a` by the PUTS service; `a` is the service's temporary (44_trap_and_system.md R216). -/
  | puts (a : Word)
  /-- The `InTake` of the GETC service. -/
  | getc
  /-- The `InTake` of the IN service, its prompt already written. -/
  | inTake
deriving DecidableEq, Repr

/-- The state: the five fields of the source's Machine State (10_state.md section 1, R37), the environment's state the
step reads or writes (R31 to R34), the hold point of a cycle in flight (00_scope.md R10) and the build's parameters. -/
structure State where
  /-- `x[0]` to `x[7]` (R20). -/
  regs : Regs
  /-- The program counter (R22). -/
  pc : Word
  /-- The condition code, bit 2 N, bit 1 Z, bit 0 P (R24, R37). -/
  cond : BitVec 3
  /-- The run flag: false is HALTED (R29). -/
  running : Bool
  /-- The raw storage cells (20_memory.md R50). -/
  mem : Memory
  /-- `inq`: the pending input units, oldest first (R31, R32, R38). -/
  inq : List Byte
  /-- The input units the core has taken since reset, oldest first: what an observer of the run sees of the input
  (R35, R38; log 37). Nothing in the hardware reads it. -/
  taken : List Byte
  /-- `out`: the console output stream, oldest first (R33). -/
  out : List Byte
  /-- `stop_req`: the host's stop request (R34). -/
  stopReq : Bool
  /-- The hold point of the present cycle; none at a cycle boundary (40_instruction_cycle.md R125). -/
  hold : Option Hold
  /-- The open parameters of this build (00_scope.md R5), the model's own field; log 2. -/
  config : Config
deriving DecidableEq, Repr

/-- Why the machine has no next step. The hardware raises no exception (60_exceptions.md R240), so there is no
architectural fault here. -/
inductive Fault where
  /-- The core is HALTED and has no step (00_scope.md R10 (c); 40_instruction_cycle.md R127). Raised by `cycle` alone,
  at a cycle boundary with `running` = 0; no instruction raises it. Safe: nothing is claimed of a step that is not
  taken, and the state before it is the final state of the run (log 12). -/
  | halted
deriving DecidableEq, Repr

/-- Why an instruction has no meaning in the model. -/
inductive Refusal where
  /-- An instruction without a meaning. Raised by an arm of `exec` that is rejected by name; there is none. Safe. -/
  | notModelled (mnemonic : String)
deriving DecidableEq, Repr

/-- What a meaning, and a step, answers. -/
abbrev Result := Host.Outcome State Fault Refusal

/-- All registers zero (R40). -/
def Regs.zero : Regs := ⟨0, 0, 0, 0, 0, 0, 0, 0⟩

/-- The machine right after reset, for a build and an environment (R40, R260): registers and memory zero, `pc` =
`0x3000`, `running` = 1, `cond` = `COND_RESET`, the console stream empty, no unit taken yet (log 37); what is pending
and the stop request are the environment's. -/
def State.launch (config : Config) (inq : List Byte) (stopReq : Bool) : State where
  regs := Regs.zero
  pc := pcReset
  cond := config.condReset
  running := true
  mem := []
  inq := inq
  taken := []
  out := []
  stopReq := stopReq
  hold := none
  config := config

/-- Reset as an event: it re-creates the Machine State and does not touch the environment's state (R40, R260). -/
def State.afterReset (s : State) : State := State.launch s.config s.inq s.stopReq

/-- The machine right after reset with the default parameters, nothing pending and no stop request (logs 2 to 5, 24). -/
def State.reset : State := State.launch Config.default [] false

end Sys2Proof.Machine
end

