-- ==== Sys2Proof/Machine/Ops.lean ====
section
/-! DEFINITION. The named operations over registers, memory, input and console: the primitives of 00_scope.md R8, each
defined once. Every meaning is written over these. -/

namespace Sys2Proof.Machine

/-! ## Updates of one field -/

/-- `pc <- v` (10_state.md R22). -/
def State.setPc (s : State) (v : Word) : State := { s with pc := v }

/-- `cond <- c` (10_state.md R24). -/
def State.setCond (s : State) (c : BitVec 3) : State := { s with cond := c }

/-- `running <- b` (10_state.md R29). -/
def State.setRunning (s : State) (b : Bool) : State := { s with running := b }

/-- The register file replaced. -/
def State.setRegs (s : State) (r : Regs) : State := { s with regs := r }

/-- The memory replaced. -/
def State.setMem (s : State) (m : Memory) : State := { s with mem := m }

/-- The pending input units replaced. -/
def State.setInq (s : State) (q : List Byte) : State := { s with inq := q }

/-- The record of the units taken replaced. -/
def State.setTaken (s : State) (k : List Byte) : State := { s with taken := k }

/-- The units `k` taken from the queue, `q` left pending (10_state.md R32, R35). -/
def State.takeUnits (s : State) (k q : List Byte) : State := (s.setInq q).setTaken (s.taken ++ k)

/-- The console stream replaced. -/
def State.setOut (s : State) (o : List Byte) : State := { s with out := o }

/-- The stop request set or cleared by the host (10_state.md R34). -/
def State.setStopReq (s : State) (b : Bool) : State := { s with stopReq := b }

/-- The hold point set or cleared (40_instruction_cycle.md R125). -/
def State.setHold (s : State) (h : Option Hold) : State := { s with hold := h }

/-! ## Registers (10_state.md R20) -/

/-- The value of a register in a register file. -/
def Regs.get (r : Regs) : Reg → Word
  | .r0 => r.r0
  | .r1 => r.r1
  | .r2 => r.r2
  | .r3 => r.r3
  | .r4 => r.r4
  | .r5 => r.r5
  | .r6 => r.r6
  | .r7 => r.r7

/-- The register file with one register replaced. -/
def Regs.set (r : Regs) (i : Reg) (v : Word) : Regs :=
  match i with
  | .r0 => { r with r0 := v }
  | .r1 => { r with r1 := v }
  | .r2 => { r with r2 := v }
  | .r3 => { r with r3 := v }
  | .r4 => { r with r4 := v }
  | .r5 => { r with r5 := v }
  | .r6 => { r with r6 := v }
  | .r7 => { r with r7 := v }

/-- `x[i]`. -/
def State.reg (s : State) (i : Reg) : Word := s.regs.get i

/-- `x[i] <- v`: it "changes only `x[i]`" (10_state.md R20). -/
def State.setReg (s : State) (i : Reg) (v : Word) : State := s.setRegs (s.regs.set i v)

/-- `LINK_REG` (00_scope.md R4). -/
def linkReg : Reg := .r7

/-! ## Raw storage (20_memory.md R50, R57) -/

/-- What an address with no entry reads as: memory is zeroed at reset (10_state.md R40;
93_implementation_defined.md U23). -/
def Memory.unlisted : Word := 0

/-- Entries from address `lo` on: addresses strictly rising and inside the address space, no entry equal to what an
unlisted address reads as. -/
def Memory.wfFrom (lo : Nat) : Memory → Bool
  | [] => true
  | (k, v) :: rest => decide (lo ≤ k) && decide (k < 65536) && v != Memory.unlisted && Memory.wfFrom (k + 1) rest

/-- The canonical form: equal memories are equal lists (log 1). -/
def Memory.wf (m : Memory) : Bool := Memory.wfFrom 0 m

/-- `mem[a]`, the raw storage cell. -/
def Memory.read : Memory → Nat → Word
  | [], _ => Memory.unlisted
  | (k, v) :: rest, a => if k = a then v else Memory.read rest a

/-- An entry in front, unless the value is what an unlisted address reads as. -/
def Memory.put (a : Nat) (v : Word) (rest : Memory) : Memory :=
  if v = Memory.unlisted then rest else (a, v) :: rest

/-- `mem[a] <- v` on the list, keeping the canonical form. -/
def Memory.write : Memory → Nat → Word → Memory
  | [], a, v => Memory.put a v []
  | (k, w) :: rest, a, v =>
    if a < k then Memory.put a v ((k, w) :: rest)
    else if a = k then Memory.put a v rest
    else (k, w) :: Memory.write rest a v

/-- The raw cell at a 16-bit address: every address is one (20_memory.md R51). -/
def State.cell (s : State) (a : Word) : Word := s.mem.read a.toNat

/-- The state with a raw cell written. -/
def State.setCell (s : State) (a v : Word) : State := s.setMem (s.mem.write a.toNat v)

/-! ## Input and console (10_state.md R31 to R33) -/

/-- `InAvail()`: at least one unit is pending (R31). -/
def State.inAvail (s : State) : Bool := !s.inq.isEmpty

/-- `InTake()`: the oldest pending unit and the state in which it has been taken; none is the hold (R32). -/
def State.inTake (s : State) : Option (Byte × State) :=
  match s.inq with
  | [] => none
  | u :: rest => some (u, s.takeUnits [u] rest)

/-- `ConPut(b)`: the byte appended to the console stream (R33). -/
def State.conPut (s : State) (b : Byte) : State := s.setOut (s.out ++ [b])

/-- `ConPut` of each byte of a string in order (R218, R220). -/
def State.conPuts (s : State) : List Byte → State
  | [] => s
  | b :: rest => (s.conPut b).conPuts rest

/-- The cycle holds at `h`: what it did before stays done, nothing else changes (00_scope.md R10;
40_instruction_cycle.md R125). -/
def State.holdAt (s : State) (h : Hold) : State := s.setHold (some h)

/-! ## The Memory Unit (20_memory.md R52 to R58) -/

/-- What a read of KBSR gives: bit 15 set iff a unit is pending, the other bits 0 (R53; log 13). -/
def State.kbsrValue (s : State) : Word := if s.inAvail then 0x8000 else 0x0000

/-- `MemRead(addr, 1)` (R52): KBSR (R53), KBDR (R54), else plain storage. None is the hold of a read of KBDR with no
unit pending. -/
def State.memRead (s : State) (a : Word) : Option (Word × State) :=
  if a = s.config.kbsrAddress then some (s.kbsrValue, s)
  else if a = s.config.kbdrAddress then
    match s.inTake with
    | none => none
    | some (u, t) => some (zext16 u, t)
  else some (s.cell a, s)

/-- `MemWrite(addr, 1, v)`: a raw store at every address, no other effect (R57, R58). -/
def State.memWrite (s : State) (a v : Word) : State := s.setCell a v

/-! ## Taking a trap and returning from one (60_exceptions.md R244, R246) -/

/-- Trap entry saves exactly one thing, the incremented pc, in `x[7]`; no flag, no other register, no mode, and the pc
is not written (R244; 44_trap_and_system.md R210). -/
def State.trapEntry (s : State) : State := s.setReg linkReg s.pc

/-- Trap return restores nothing: the pc still holds the address after the TRAP (R246). It is also all that RTI does
(44_trap_and_system.md R230). -/
def State.trapReturn (s : State) : State := s

end Sys2Proof.Machine
end

