-- ==== Sys2Proof/Machine/Flags.lean ====
section
/-! DEFINITION. The condition code: how it is computed, who sets it, how BR tests it (10_state.md R24 to R28). -/

namespace Sys2Proof.Machine

/-- The condition code of a value: Z for 0, N when bit 15 is set, otherwise P (R25). -/
def condOf (v : Word) : BitVec 3 :=
  if v = 0x0000 then flZ else if v.getLsbD 15 then flN else flP

/-- `setcc(i)`: `cond` from the present value of `x[i]`; it writes nothing else (R25). -/
def State.setcc (s : State) (i : Reg) : State := s.setCond (condOf (s.reg i))

/-- `x[DR] <- v; setcc(DR)`: the register write and the one call of `setcc` after it that the seven flag-setting
instructions make (R27; 41_operate.md R152). -/
def State.writeDest (s : State) (dr : Reg) (v : Word) : State := (s.setReg dr v).setcc dr

/-- BR's test `(ir[11:9] & cond) != 0` (43_control.md R190). -/
def condTest (nzp cond : BitVec 3) : Bool := (nzp &&& cond) != 0

end Sys2Proof.Machine
end

