-- ==== Sys2Proof/Machine/Operands.lean ====
section
/-! DEFINITION. The operand forms: the four addressing modes of 42_data_movement.md R180 and the branch targets of
43_control.md R200. Every sum is modulo 2^16 (20_memory.md R64), and `pc` is the incremented pc
(40_instruction_cycle.md R122). The indirect mode is a pc-relative address and then a `MemRead` of it, which LDI and
STI make in order (20_memory.md R63). -/

namespace Sys2Proof.Machine

/-- Immediate: `sext_5(imm5)` (R180; 41_operate.md R141, R145). -/
def immOperand (imm5 : BitVec 5) : Word := sext imm5

/-- PC-relative: `pc + sext_9(PCoffset9)` (R180); also the target of BR (43_control.md R190). -/
def State.pcRel9 (s : State) (off9 : BitVec 9) : Word := s.pc + sext off9

/-- Base plus offset: `x[BaseR] + sext_6(offset6)` (R180). -/
def State.base6 (s : State) (base : Reg) (off6 : BitVec 6) : Word := s.reg base + sext off6

/-- The target of JSR: `pc + sext_11(PCoffset11)` (43_control.md R196). -/
def State.pcRel11 (s : State) (off11 : BitVec 11) : Word := s.pc + sext off11

end Sys2Proof.Machine
end

