-- ==== Sys2Proof/Machine/Control.lean ====
section
/-! DEFINITION. The control instructions BR, JMP, JSR, JSRR (43_control.md). None changes `cond`, reads or writes
memory, or holds; the next instruction is the one at the new pc (R200). -/

namespace Sys2Proof.Machine

/-- BR: `if (ir[11:9] & cond) != 0 then pc <- pc + sext_9(PCoffset9)` (R190). -/
def execBr (nzp : BitVec 3) (off9 : BitVec 9) (s : State) : Result :=
  .next (if condTest nzp s.cond then s.setPc (s.pcRel9 off9) else s)

/-- JMP: `pc <- x[BaseR]`; RET is the case BaseR = R7 (R194). -/
def execJmp (base : Reg) (s : State) : Result := .next (s.setPc (s.reg base))

/-- JSR: `x[7] <- pc; pc <- pc + sext_11(PCoffset11)` (R196). -/
def execJsr (off11 : BitVec 11) (s : State) : Result := .next ((s.setReg linkReg s.pc).setPc (s.pcRel11 off11))

/-- JSRR: `x[7] <- pc; pc <- x[BaseR]`, in this order, so that `JSRR R7` reads the value just written (R198;
log 18). -/
def execJsrr (base : Reg) (s : State) : Result :=
  let t := s.setReg linkReg s.pc
  .next (t.setPc (t.reg base))

end Sys2Proof.Machine
end

