-- ==== Sys2Proof/Machine/Data.lean ====
section
/-! DEFINITION. The data movement instructions LD, LDI, LDR, LEA, ST, STI, STR (42_data_movement.md). A read goes
through the Memory Unit and may hold (20_memory.md R54); the part of an instruction from a read on is a definition of
its own, which a held cycle goes on with (40_instruction_cycle.md R125). -/

namespace Sys2Proof.Machine

/-- The data read of LD, LDR and LDI and what follows it: `x[DR] <- MemRead(a, 1); setcc(DR)`. -/
def loadFrom (dr : Reg) (a : Word) (s : State) : Result :=
  match s.memRead a with
  | none => .next (s.holdAt (.load dr))
  | some (v, t) => .next (t.writeDest dr v)

/-- The pointer read of LDI and what follows it: `p <- MemRead(a, 1); x[DR] <- MemRead(p, 1); setcc(DR)`. -/
def ldiFrom (dr : Reg) (a : Word) (s : State) : Result :=
  match s.memRead a with
  | none => .next (s.holdAt (.ldiPointer dr))
  | some (p, t) => loadFrom dr p t

/-- The pointer read of STI and what follows it: `p <- MemRead(a, 1); MemWrite(p, 1, x[SR])`. -/
def stiFrom (sr : Reg) (a : Word) (s : State) : Result :=
  match s.memRead a with
  | none => .next (s.holdAt (.stiPointer sr))
  | some (p, t) => .next (t.memWrite p (t.reg sr))

/-- LD (R160). -/
def execLd (dr : Reg) (off9 : BitVec 9) (s : State) : Result := loadFrom dr (s.pcRel9 off9) s

/-- LDI (R162): the pointer read first (20_memory.md R63). -/
def execLdi (dr : Reg) (off9 : BitVec 9) (s : State) : Result := ldiFrom dr (s.pcRel9 off9) s

/-- LDR (R164): the base register is read before DR is written. -/
def execLdr (dr base : Reg) (off6 : BitVec 6) (s : State) : Result := loadFrom dr (s.base6 base off6) s

/-- LEA (R166): the address itself, no memory read, and the flags are set from it. -/
def execLea (dr : Reg) (off9 : BitVec 9) (s : State) : Result := .next (s.writeDest dr (s.pcRel9 off9))

/-- ST (R170): no flag update. -/
def execSt (sr : Reg) (off9 : BitVec 9) (s : State) : Result := .next (s.memWrite (s.pcRel9 off9) (s.reg sr))

/-- STI (R172): one read, then one write. -/
def execSti (sr : Reg) (off9 : BitVec 9) (s : State) : Result := stiFrom sr (s.pcRel9 off9) s

/-- STR (R174). -/
def execStr (sr base : Reg) (off6 : BitVec 6) (s : State) : Result := .next (s.memWrite (s.base6 base off6) (s.reg sr))

end Sys2Proof.Machine
end

