-- ==== Sys2Proof/Machine/Operate.lean ====
section
/-! DEFINITION. The operate instructions ADD, AND, NOT (41_operate.md). Sources are read before the destination is
written (R152); all arithmetic wraps modulo 2^16 and no carry or overflow is kept (R150). -/

namespace Sys2Proof.Machine

/-- ADD, register form: `x[DR] <- x[SR1] + x[SR2]; setcc(DR)` (R140). -/
def execAddReg (dr sr1 sr2 : Reg) (s : State) : Result := .next (s.writeDest dr (s.reg sr1 + s.reg sr2))

/-- ADD, immediate form: `x[DR] <- x[SR1] + sext_5(imm5); setcc(DR)` (R141). -/
def execAddImm (dr sr1 : Reg) (imm5 : BitVec 5) (s : State) : Result :=
  .next (s.writeDest dr (s.reg sr1 + immOperand imm5))

/-- AND, register form: `x[DR] <- x[SR1] & x[SR2]; setcc(DR)` (R144). -/
def execAndReg (dr sr1 sr2 : Reg) (s : State) : Result := .next (s.writeDest dr (s.reg sr1 &&& s.reg sr2))

/-- AND, immediate form: `x[DR] <- x[SR1] & sext_5(imm5); setcc(DR)` (R145). -/
def execAndImm (dr sr1 : Reg) (imm5 : BitVec 5) (s : State) : Result :=
  .next (s.writeDest dr (s.reg sr1 &&& immOperand imm5))

/-- NOT: `x[DR] <- ~x[SR]; setcc(DR)` (R148). -/
def execNot (dr sr : Reg) (s : State) : Result := .next (s.writeDest dr (~~~ s.reg sr))

end Sys2Proof.Machine
end

