-- ==== Sys2Proof/Machine/Trap.lean ====
section
/-! DEFINITION. TRAP with the Trap Table and its five services, and the two no-op opcodes RTI and RESERVED
(44_trap_and_system.md). No instruction here changes `cond` (10_state.md R27). -/

namespace Sys2Proof.Machine

/-- The services of the Trap Table: five built-in ones and the empty one (R224). -/
inductive Service where
  | getc | out | puts | inp | halt | empty
deriving DecidableEq, Repr

/-- The Trap Table: a fixed mapping, vector byte to service (R224; 00_scope.md R4). -/
def trapTable (vector : Byte) : Service :=
  if vector = 0x20 then .getc
  else if vector = 0x21 then .out
  else if vector = 0x22 then .puts
  else if vector = 0x23 then .inp
  else if vector = 0x25 then .halt
  else .empty

/-- GETC: `c <- InTake(); x[0] <- zext_16(c)`; no echo, no flags (R212). -/
def getcService (s : State) : Result :=
  match s.inTake with
  | none => .next (s.holdAt .getc)
  | some (c, t) => .next (t.setReg .r0 (zext16 c)).trapReturn

/-- OUT: `ConPut(x[0][7:0])` (R214). -/
def outService (s : State) : Result := .next (s.conPut (lowByte (s.reg .r0))).trapReturn

/-- The loop of PUTS from address `a`: `w <- MemRead(a, 1); if w = 0x0000 then exit loop; ConPut(w[7:0]); a <- a + 1`
(R216), at most `fuel` reads. A read that holds, or fuel that ends, leaves the service in flight at `a`; with
`putsFuel` the fuel does not end before the service does (log 20). -/
def putsLoop : Nat → Word → State → State
  | 0, a, s => s.holdAt (.puts a)
  | fuel + 1, a, s =>
    match s.memRead a with
    | none => s.holdAt (.puts a)
    | some (w, t) => if w = 0x0000 then t.trapReturn else putsLoop fuel (a + 1) (t.conPut (lowByte w))

/-- Enough reads for any string: a pass over the 65536 addresses reads KBDR once, which takes a pending unit or
holds. -/
def putsFuel (s : State) : Nat := 65536 * (s.inq.length + 1)

/-- PUTS from address `a`. -/
def putsFrom (a : Word) (s : State) : Result := .next (putsLoop (putsFuel s) a s)

/-- PUTS: `a <- x[0]` and the loop; `x[0]` is not changed (R216). -/
def putsService (s : State) : Result := putsFrom (s.reg .r0) s

/-- IN after its prompt: `c <- InTake(); ConPut(c); x[0] <- zext_16(c)` (R218). -/
def inTakeAndEcho (s : State) : Result :=
  match s.inTake with
  | none => .next (s.holdAt .inTake)
  | some (c, t) => .next ((t.conPut c).setReg .r0 (zext16 c)).trapReturn

/-- IN: the prompt, then take, echo, store (R218). -/
def inService (s : State) : Result := inTakeAndEcho (s.conPuts s.config.inPrompt)

/-- HALT: the halt notice, then `running <- 0` (R220). -/
def haltService (s : State) : Result := .next ((s.conPuts s.config.haltNotice).setRunning false).trapReturn

/-- Any other vector: nothing (R222). -/
def emptyService (s : State) : Result := .next s.trapReturn

/-- `service(v)` (R210). -/
def runService (v : Service) (s : State) : Result :=
  match v with
  | .getc => getcService s
  | .out => outService s
  | .puts => putsService s
  | .inp => inService s
  | .halt => haltService s
  | .empty => emptyService s

/-- TRAP: `x[7] <- pc; service(trapvect8)`, in this order, for every vector (R210, R222). -/
def execTrap (vect8 : BitVec 8) (s : State) : Result := runService (trapTable vect8) s.trapEntry

/-- RTI: nothing; nothing is popped or restored (R230). -/
def execRti (s : State) : Result := .next s.trapReturn

/-- RESERVED: nothing (R232). -/
def execReserved (s : State) : Result := .next s

end Sys2Proof.Machine
end

