-- ==== Sys2Proof/Machine/Cycle.lean ====
section
/-! DEFINITION. The instruction cycle (40_instruction_cycle.md R120 to R127): the boundary's checks, the fetch, the
increment, and how a cycle that held goes on. -/

namespace Sys2Proof.Machine

/-- The fetch, the increment and the execution of a cycle: `ir <- MemRead(pc, 1)` (R121), `pc <- pc + 1` (R122),
`execute(decode(ir))` (R123). A fetch that holds changes nothing (R125). -/
def fetchExecute (s : State) : Result :=
  match s.memRead s.pc with
  | none => .next (s.holdAt .fetch)
  | some (ir, t) => exec (decode ir) (t.setPc (t.pc + 1))

/-- The rest of a cycle from its hold point on (R125: "the cycle goes on from the hold point"). The read that held is
made again: with a unit pending it completes, with none it holds as before and nothing has changed. A hold of a
`MemRead` is one at `KBDR_ADDRESS` (00_scope.md R10). -/
def resume (h : Hold) (s : State) : Result :=
  match h with
  | .fetch => fetchExecute s
  | .load dr => loadFrom dr s.config.kbdrAddress s
  | .ldiPointer dr => ldiFrom dr s.config.kbdrAddress s
  | .stiPointer sr => stiFrom sr s.config.kbdrAddress s
  | .puts a => putsFrom a s
  | .getc => getcService s
  | .inTake => inTakeAndEcho s

/-- A cycle boundary: the run flag first, the stop request second, then an instruction (R120; 60_exceptions.md R243). -/
def boundary (s : State) : Result :=
  if s.running then
    if s.stopReq then .next (s.setRunning false) else fetchExecute s
  else .fault .halted

/-- One step of the core (R124). A core that holds in the middle of a cycle goes on with that cycle and does not look
at the stop request (10_state.md R34). -/
def cycle (s : State) : Result :=
  match s.hold with
  | some h => resume h (s.setHold none)
  | none => boundary s

/-! ## Placing an instruction where the next step fetches it -/

/-- Whether a read of this address is intercepted (20_memory.md R52), so that nothing can be fetched from its cell. -/
def State.intercepted (s : State) (a : Word) : Bool := a == s.config.kbsrAddress || a == s.config.kbdrAddress

/-- Where an instruction can be placed for the next fetch: the pc, or the next address that is plain storage. -/
def State.fetchSite (s : State) : Word :=
  if s.intercepted s.pc then
    if s.intercepted (s.pc + 1) then s.pc + 2 else s.pc + 1
  else s.pc

/-- The state at a running cycle boundary with the word placed where the next step fetches (logs 25, 30). -/
def State.placeWord (s : State) (w : Word) : State :=
  ((((s.setRunning true).setStopReq false).setHold none).setPc s.fetchSite).setCell s.fetchSite w

end Sys2Proof.Machine
end

