-- ==== Sys2Proof/Machine/Environment.lean ====
section
/-! DEFINITION. The agents outside the block and what they can do to it (00_scope.md R9; 10_state.md R30 to R35;
70_reset_and_hazards.md R260 to R264): the image load and the pc port before the run, the arrival of input units, the
stop request, reset, and what an observer sees. The step of the core is `step`; here it is one event among theirs. -/

namespace Sys2Proof.Machine

/-! ## The host before the run -/

/-- Words stored at consecutive addresses, modulo 2^16 (R263). -/
def State.storeWords (s : State) (a : Word) : List Word → State
  | [] => s
  | w :: rest => (s.memWrite a w).storeWords (a + 1) rest

/-- The image load: "the first word is the load origin address; each subsequent word is stored at consecutive addresses
starting at the origin"; the pc does not move (R263; log 32). An image without an origin word, on which the source is
silent (91_not_in_source.md N32), is an image of no words and leaves the state as it is: DESIGN CHOICE, log 32. -/
def State.loadImage (s : State) : List Word → State
  | [] => s
  | origin :: words => s.storeWords origin words

/-- The words of an image's bytes, big-endian (20_memory.md R60); an odd byte is a truncated image
(93_implementation_defined.md U26). -/
def imageWords : List Byte → Except DecodeError (List Word)
  | [] => .ok []
  | [_] => .error .halfWord
  | hi :: lo :: rest =>
    match imageWords rest with
    | .ok words => .ok ((hi ++ lo) :: words)
    | .error e => .error e

/-! ## The input source -/

/-- The input source makes a unit pending, behind those that are (R31, R32). -/
def State.deliver (s : State) (u : Byte) : State := s.setInq (s.inq ++ [u])

/-! ## The whole system -/

/-- The core, what the input source has supplied, and what decides whether the host's ports may be used (R30: "has not
yet run since reset"; R263: the pc is written once at most); log 27. -/
structure System where
  core : State
  /-- The units the input source has supplied: those pending at reset, then those made pending since (R31, R35). -/
  supplied : List Byte
  /-- The core has run since reset. -/
  started : Bool
  /-- The host has written the pc since reset. -/
  pcWritten : Bool
deriving DecidableEq, Repr

/-- What can happen next (R9, R10, R30, R31, R34). -/
inductive Event where
  /-- The core makes a step. -/
  | cycle
  /-- The input source makes a unit pending, at a boundary or during a hold. -/
  | deliver (u : Byte)
  /-- The host raises the stop request. -/
  | raiseStop
  /-- The host lowers the stop request. -/
  | lowerStop
  /-- The host's memory port. -/
  | hostWrite (a v : Word)
  /-- The host's pc port. -/
  | hostSetPc (v : Word)
  /-- Reset, at a cycle boundary (log 38). -/
  | reset
deriving DecidableEq, Repr

/-- The system after an event; none when the event cannot happen: a HALTED core has no step, and the host's ports are
closed once the core has run (93_implementation_defined.md U25). A hold is one "which only the arrival of an input unit
ends" (60_exceptions.md R256), and of the agents outside only the input source acts in it (92_eei_decisions.md D20), so
reset cannot happen while the core holds (DEDUCED, log 38); the level of the stop request may change at any time (R34),
and a core that holds does not see it. -/
def System.apply (y : System) : Event → Option System
  | .cycle =>
    match step y.core with
    | .next t => some { y with core := t, started := true }
    | .fault _ => none
    | .refused _ => none
  | .deliver u => some { y with core := y.core.deliver u, supplied := y.supplied ++ [u] }
  | .raiseStop => some { y with core := y.core.setStopReq true }
  | .lowerStop => some { y with core := y.core.setStopReq false }
  | .hostWrite a v => if y.started then none else some { y with core := y.core.memWrite a v }
  | .hostSetPc v =>
    if y.started || y.pcWritten then none else some { y with core := y.core.setPc v, pcWritten := true }
  | .reset =>
    if y.core.hold.isSome then none
    else some { core := y.core.afterReset, supplied := y.core.inq, started := false, pcWritten := false }

/-- The system after a list of events, as far as each can happen. -/
def System.run (y : System) : List Event → Option System
  | [] => some y
  | e :: rest =>
    match y.apply e with
    | some z => z.run rest
    | none => none

/-- A system right after reset, for a build and an environment. -/
def System.launch (config : Config) (inq : List Byte) (stopReq : Bool) : System :=
  { core := State.launch config inq stopReq, supplied := inq, started := false, pcWritten := false }

/-! ## What an observer sees (R35) -/

/-- The source's Machine State: `memory`, `registers`, `program_counter`, `condition`, `running` (R37). -/
structure MachineState where
  memory : Memory
  registers : Regs
  programCounter : Word
  condition : BitVec 3
  running : Bool
deriving DecidableEq, Repr

/-- The console stream, the input units taken, the run flag and, once HALTED, the whole Machine State (R35;
92_eei_decisions.md D27; log 37). -/
structure Observation where
  out : List Byte
  taken : List Byte
  running : Bool
  final : Option MachineState
deriving DecidableEq, Repr

/-- What an observer of a run may see of a state (R35). -/
def State.observe (s : State) : Observation where
  out := s.out
  taken := s.taken
  running := s.running
  final := if s.running then none else some ⟨s.mem, s.regs, s.pc, s.cond, s.running⟩

end Sys2Proof.Machine
end

