-- ==== Sys2Proof/Safety.lean ====
section
/-! DEFINITION. What counts as a safe state and a safe answer, and the words the claims use for what an instruction
changes and leaves unchanged. -/

namespace Sys2Proof.Machine

/-! ## The invariant -/

/-- The legal values of `cond`: one of N, Z, P, or none of them when the build's `COND_RESET` is `0b000`
(10_state.md R24, R40). -/
def State.condLegal (s : State) : Bool :=
  s.cond == 0b100 || s.cond == 0b010 || s.cond == 0b001 || (s.cond == 0b000 && s.config.condReset == 0b000)

/-- What a held cycle has done before its hold point (40_instruction_cycle.md R125): the core is running; a fetch that
holds is one at `KBDR_ADDRESS`; PUTS holds at `KBDR_ADDRESS`; in a service `x[7]` holds the incremented pc; in IN the
prompt is the end of the console stream. -/
def State.holdLegal (s : State) : Bool :=
  match s.hold with
  | none => true
  | some .fetch => s.running && s.pc == s.config.kbdrAddress
  | some (.load _) => s.running
  | some (.ldiPointer _) => s.running
  | some (.stiPointer _) => s.running
  | some (.puts a) => s.running && s.reg linkReg == s.pc && a == s.config.kbdrAddress
  | some .getc => s.running && s.reg linkReg == s.pc
  | some .inTake => s.running && s.reg linkReg == s.pc && s.config.inPrompt.isSuffixOf s.out

/-- What holds of every state a run reaches: the parameters are legal (00_scope.md R5), memory is in canonical form, the
condition code is legal (10_state.md R24) and so is a hold (40_instruction_cycle.md R125). -/
structure State.Inv (s : State) : Prop where
  config : s.config.legal = true
  memory : s.mem.wf = true
  cond : s.condLegal = true
  hold : s.holdLegal = true

/-- What holds of every system a run reaches: the core's invariant, the units taken are a prefix of those supplied and
the pending ones are the rest (10_state.md R31, R35), and a core that has not run since reset is RUNNING, at a cycle
boundary. -/
structure System.Inv (y : System) : Prop where
  core : y.core.Inv
  input : y.supplied = y.core.taken ++ y.core.inq
  unstarted : y.started = false → y.core.hold = none ∧ y.core.running = true

/-- The state of a held core once its read has taken the oldest unit `u`, with `q` left pending
(40_instruction_cycle.md R125). -/
def State.tookUnit (s : State) (u : Byte) (q : List Byte) : State :=
  { s with hold := none, inq := q, taken := s.taken ++ [u] }

/-- A safe answer of a step: a next state, or the core is HALTED (00_scope.md R10: "No step faults and no step is
refused"). -/
def Result.safe : Result → Bool
  | .next _ => true
  | .fault .halted => true
  | .refused _ => false

/-! ## What is changed and what is not -/

/-- Nothing of the loop, of the console, of the input or of the build is changed. -/
structure SameSurroundings (s t : State) : Prop where
  running : t.running = s.running
  inq : t.inq = s.inq
  taken : t.taken = s.taken
  out : t.out = s.out
  stopReq : t.stopReq = s.stopReq
  hold : t.hold = s.hold
  config : t.config = s.config

/-- Every raw memory cell reads as before. -/
def SameCells (s t : State) : Prop := ∀ a, t.cell a = s.cell a

/-- Every register but `d` reads as before. -/
def SameRegsBut (d : Reg) (s t : State) : Prop := ∀ r, r ≠ d → t.reg r = s.reg r

/-- Every register reads as before. -/
def SameRegs (s t : State) : Prop := ∀ r, t.reg r = s.reg r

/-- `c` is the one flag that says the sign of `v` (10_state.md R25, R28): Z for 0, N for a negative and P for a positive
signed value. -/
def FlagOf (v : Word) (c : BitVec 3) : Prop :=
  (v.toInt = 0 → c = 0b010) ∧ (v.toInt < 0 → c = 0b100) ∧ (0 < v.toInt → c = 0b001)

/-- `t` is `s` with `x[d]` = `v` and the flags of `v`, and nothing else changed. -/
structure WroteDest (d : Reg) (v : Word) (s t : State) : Prop where
  value : t.reg d = v
  flags : FlagOf v t.cond
  regs : SameRegsBut d s t
  pc : t.pc = s.pc
  cells : SameCells s t
  rest : SameSurroundings s t

/-- `t` is `s` with the cell at `a` holding `v`, and nothing else changed. -/
structure Stored (a v : Word) (s t : State) : Prop where
  value : t.cell a = v
  cells : ∀ b, b ≠ a → t.cell b = s.cell b
  regs : SameRegs s t
  cond : t.cond = s.cond
  pc : t.pc = s.pc
  rest : SameSurroundings s t

/-- `t` is `s` with `pc` = `target`, and nothing else changed. -/
structure Jumped (target : Word) (s t : State) : Prop where
  pc : t.pc = target
  regs : SameRegs s t
  cond : t.cond = s.cond
  cells : SameCells s t
  rest : SameSurroundings s t

/-- `t` is `s` with `x[7]` = the pc of `s` and `pc` = `target`, and nothing else changed. -/
structure Called (target : Word) (s t : State) : Prop where
  link : t.reg .r7 = s.pc
  pc : t.pc = target
  regs : SameRegsBut .r7 s t
  cond : t.cond = s.cond
  cells : SameCells s t
  rest : SameSurroundings s t

/-- What every TRAP does and leaves unchanged, whatever its vector: `x[7]` is the pc of `s` (the incremented pc); no
register but `x[7]` and `x[0]`, no flag, no cell, not the pc, the stop request or the build is changed
(44_trap_and_system.md R210; 60_exceptions.md R244). What a service does to `x[0]`, the input, the console and the run
flag is said beside it. -/
structure Trapped (s t : State) : Prop where
  link : t.reg .r7 = s.pc
  regs : ∀ r, r ≠ .r7 → r ≠ .r0 → t.reg r = s.reg r
  cond : t.cond = s.cond
  pc : t.pc = s.pc
  cells : SameCells s t
  stopReq : t.stopReq = s.stopReq
  config : t.config = s.config

end Sys2Proof.Machine

namespace Sys2Proof

open Sys2Proof.Machine

/-- The registers an instruction may write: the table of 10_state.md R21. -/
def Instr.mayWrite : Instr → Reg → Bool
  | .br _ _, _ => false
  | .addReg dr _ _ _, r => r == dr
  | .addImm dr _ _, r => r == dr
  | .ld dr _, r => r == dr
  | .st _ _, _ => false
  | .jsr _, r => r == .r7
  | .jsrr _ _ _, r => r == .r7
  | .andReg dr _ _ _, r => r == dr
  | .andImm dr _ _, r => r == dr
  | .ldr dr _ _, r => r == dr
  | .str _ _ _, _ => false
  | .rti _, _ => false
  | .not dr _ _, r => r == dr
  | .ldi dr _, r => r == dr
  | .sti _ _, _ => false
  | .jmp _ _ _, _ => false
  | .reserved _, _ => false
  | .lea dr _, r => r == dr
  | .trap vect8 _, r => r == .r7 || (r == .r0 && (vect8 == 0x20 || vect8 == 0x23))

/-- The DR field of the seven flag-setting instructions, nine rows (10_state.md R27). -/
def Instr.flagDest : Instr → Option Reg
  | .br _ _ => none
  | .addReg dr _ _ _ => some dr
  | .addImm dr _ _ => some dr
  | .ld dr _ => some dr
  | .st _ _ => none
  | .jsr _ => none
  | .jsrr _ _ _ => none
  | .andReg dr _ _ _ => some dr
  | .andImm dr _ _ => some dr
  | .ldr dr _ _ => some dr
  | .str _ _ _ => none
  | .rti _ => none
  | .not dr _ _ => some dr
  | .ldi dr _ => some dr
  | .sti _ _ => none
  | .jmp _ _ _ => none
  | .reserved _ => none
  | .lea dr _ => some dr
  | .trap _ _ => none

/-- The address an instruction stores to, with the meanings' own address functions: ST and STR their effective address,
STI the pointer it reads (none when that read holds); every other form stores nothing (20_memory.md R62). -/
def Instr.storeAddress (i : Instr) (s : State) : Option Word :=
  match i with
  | .st _ off9 => some (s.pcRel9 off9)
  | .str _ base off6 => some (s.base6 base off6)
  | .sti _ off9 => (s.memRead (s.pcRel9 off9)).map Prod.fst
  | _ => none

end Sys2Proof

namespace Sys2Proof.Machine

/-- An answer with its next state changed. -/
def mapNext (f : State → State) : Result → Result
  | .next s => .next (f s)
  | .fault r => .fault r
  | .refused r => .refused r

end Sys2Proof.Machine
end

