-- ==== Sys2Proof/Certificates/Slice0/Obligations.lean ====
section
/-! DEFINITION. The statements for the provers, from the numbered rules of spec/. The words they use (`WroteDest`,
`Stored`, `Jumped`, `Called`, `Trapped`, `State.Inv`, …) are in Sys2Proof/Safety.lean. Where a statement rests on a
decision the spec marks as its own (D<n> of 92_eei_decisions.md) or on a choice of the model, its docstring says so and
names the log entry.

An instruction is executed on a state whose `pc` is the incremented pc (40_instruction_cycle.md R122). Every state
carries the build's open parameters, so a statement about every state is one for every value of them (log 2). -/

open Sys2Proof Sys2Proof.Machine

/-! ## The decoder -/

/-- The seven words of the source's scenarios decode to the instructions they stand for (95_test_vectors.md
section 1). -/
def Obligations.SourceWordsDecode : Prop :=
  decode 0x1042 = .addReg .r0 .r1 .r2 0 ∧ decode 0x16FF = .addImm .r3 .r3 0b11111 ∧
  decode 0x5020 = .andImm .r0 .r0 0 ∧ decode 0x907F = .not .r0 .r1 0b111111 ∧ decode 0xE005 = .lea .r0 5 ∧
  decode 0x0402 = .br 0b010 2 ∧ decode 0xF025 = .trap 0x25 0

/-- Decoding an encoded instruction gives it back, every operand and every ignored bit at every value. That the ignored
bits are kept is log 10 (30_encoding.md R98, derived there from R97, decision D13). -/
def Obligations.DecodeOfEncode : Prop := ∀ i : Instr, decode (encode i) = i

/-- The other direction: re-encoding what any of the 65536 words decodes to reproduces the word (30_encoding.md R98,
derived there from R97; log 10). -/
def Obligations.EncodeOfDecode : Prop := ∀ w : Word, encode (decode w) = w

/-- Every word belongs to exactly one of the 19 rows of the opcode table, the row of the instruction it decodes to
(30_encoding.md R97, decisions D1 and D13; logs 7, 10). -/
def Obligations.EveryWordIsInOneRow : Prop :=
  ∀ w : Word, opcodeTable.filter (fun r => r.has w) = [(decode w).row]

/-- The word a well-formed assembly form stands for, as the sums of 30_encoding.md R103 and the words of R105, decodes
to the instruction the form means, in canonical form (R104). The notation is the spec's own (decision D25; log 34). -/
def Obligations.AssembledWordDecodes : Prop :=
  ∀ (a : Asm) (i : Instr), a.wellFormed = true → a.instr = some i →
    decode a.assemble = i ∧ encode i = a.assemble ∧ i.canonical = true

/-- Sign extension (30_encoding.md R82): the field itself when its top bit is 0, the field OR'd with all higher bits
otherwise, which is `f + 2^16 - 2^n`; read as a signed number the result is `f` below `2^(n-1)` and `f - 2^n` from there
on. -/
def Obligations.SignExtensionOfField : Prop :=
  ∀ (n : Nat) (f : Word), 1 ≤ n → n ≤ 15 → f.toNat < 2 ^ n →
    (f.getLsbD (n - 1) = false →
      f.toNat < 2 ^ (n - 1) ∧ sextN n f = f ∧ (sextN n f).toInt = (f.toNat : Int)) ∧
    (f.getLsbD (n - 1) = true →
      2 ^ (n - 1) ≤ f.toNat ∧ sextN n f = f ||| ((0xFFFF : Word) <<< n) ∧
      (sextN n f).toNat = f.toNat + 2 ^ 16 - 2 ^ n ∧ (sextN n f).toInt = (f.toNat : Int) - 2 ^ n)

/-- `extract` (30_encoding.md R80), bit by bit on its domain (R81, decision D21): the field's bits in the low places and
above them zeros, or copies of the field's top bit when the sign flag is set. -/
def Obligations.ExtractIsTheField : Prop :=
  ∀ (ir : Word) (hi len i : Nat), hi ≤ 15 → 1 ≤ len → len ≤ hi + 1 → i < 16 →
    (extract ir hi len false).getLsbD i = (decide (i < len) && ir.getLsbD (hi + 1 - len + i)) ∧
    (extract ir hi len true).getLsbD i = ir.getLsbD (if i < len then hi + 1 - len + i else hi)

/-- What each operand of a decoded word is, by the one call of `extract` the table of 30_encoding.md R84 gives for it. -/
def OperandsAreExtracted (w : Word) : Instr → Prop
  | .br nzp off9 => nzp.setWidth 16 = Field.conditionBits.value w ∧ sext off9 = Field.pcOffset9.value w
  | .addReg dr sr1 sr2 _ => dr.bits.setWidth 16 = Field.dr.value w ∧ sr1.bits.setWidth 16 = Field.sr1.value w ∧
      sr2.bits.setWidth 16 = Field.sr2.value w ∧ Field.immediateFlag.value w = 0
  | .addImm dr sr1 imm5 => dr.bits.setWidth 16 = Field.dr.value w ∧ sr1.bits.setWidth 16 = Field.sr1.value w ∧
      sext imm5 = Field.imm5.value w ∧ Field.immediateFlag.value w = 1
  | .ld dr off9 => dr.bits.setWidth 16 = Field.dr.value w ∧ sext off9 = Field.pcOffset9.value w
  | .st sr off9 => sr.bits.setWidth 16 = Field.storeSr.value w ∧ sext off9 = Field.pcOffset9.value w
  | .jsr off11 => sext off11 = Field.pcOffset11.value w ∧ Field.longFlag.value w = 1
  | .jsrr base _ _ => base.bits.setWidth 16 = Field.sr1.value w ∧ Field.longFlag.value w = 0
  | .andReg dr sr1 sr2 _ => dr.bits.setWidth 16 = Field.dr.value w ∧ sr1.bits.setWidth 16 = Field.sr1.value w ∧
      sr2.bits.setWidth 16 = Field.sr2.value w ∧ Field.immediateFlag.value w = 0
  | .andImm dr sr1 imm5 => dr.bits.setWidth 16 = Field.dr.value w ∧ sr1.bits.setWidth 16 = Field.sr1.value w ∧
      sext imm5 = Field.imm5.value w ∧ Field.immediateFlag.value w = 1
  | .ldr dr base off6 => dr.bits.setWidth 16 = Field.dr.value w ∧ base.bits.setWidth 16 = Field.sr1.value w ∧
      sext off6 = Field.offset6.value w
  | .str sr base off6 => sr.bits.setWidth 16 = Field.storeSr.value w ∧ base.bits.setWidth 16 = Field.sr1.value w ∧
      sext off6 = Field.offset6.value w
  | .rti _ => True
  | .not dr sr _ => dr.bits.setWidth 16 = Field.dr.value w ∧ sr.bits.setWidth 16 = Field.sr1.value w
  | .ldi dr off9 => dr.bits.setWidth 16 = Field.dr.value w ∧ sext off9 = Field.pcOffset9.value w
  | .sti sr off9 => sr.bits.setWidth 16 = Field.storeSr.value w ∧ sext off9 = Field.pcOffset9.value w
  | .jmp base _ _ => base.bits.setWidth 16 = Field.sr1.value w
  | .reserved _ => True
  | .lea dr off9 => dr.bits.setWidth 16 = Field.dr.value w ∧ sext off9 = Field.pcOffset9.value w
  | .trap vect8 _ => vect8.setWidth 16 = Field.trapvect8.value w

/-- The opcode number of the decoded instruction, and the operands the decoder gives, sign-extended as the executor does,
are the values of the decoder's eleven calls of `extract`, for every word (30_encoding.md R84, decisions D1, D2; logs 7,
8). RTI and RESERVED have the opcode call alone. -/
def Obligations.OperandsAreExtractedFields : Prop :=
  ∀ w : Word, (decode w).opcode.bits.setWidth 16 = Field.opcode.value w ∧ OperandsAreExtracted w (decode w)

/-- An instruction and its canonical form do the same in every state: the ignored bits have no effect
(30_encoding.md R97, decision D13; log 10). -/
def Obligations.IgnoredBitsHaveNoEffect : Prop := ∀ (i : Instr) (s : State), exec i s = exec i.canonicalise s

/-! ## Registers, flags, memory -/

/-- A register write changes only that register: no other register, not `cond`, nothing else (10_state.md R20). -/
def Obligations.RegisterWriteChangesOnlyIt : Prop :=
  ∀ (s : State) (i : Reg) (v : Word),
    (s.setReg i v).reg i = v ∧ SameRegsBut i s (s.setReg i v) ∧ (s.setReg i v).cond = s.cond ∧
    (s.setReg i v).pc = s.pc ∧ SameCells s (s.setReg i v) ∧ SameSurroundings s (s.setReg i v)

/-- `setcc(i)` (10_state.md R25): Z for `0x0000`, P for `0x0001` to `0x7FFF`, N for `0x8000` to `0xFFFF`, and nothing but
`cond` is written. -/
def Obligations.SetccPartitionsTheValues : Prop :=
  ∀ (s : State) (i : Reg),
    ((s.reg i).toNat = 0 → (s.setcc i).cond = flZ) ∧
    (1 ≤ (s.reg i).toNat → (s.reg i).toNat ≤ 0x7FFF → (s.setcc i).cond = flP) ∧
    (0x8000 ≤ (s.reg i).toNat → (s.setcc i).cond = flN) ∧
    SameRegs s (s.setcc i) ∧ (s.setcc i).pc = s.pc ∧ SameCells s (s.setcc i) ∧ SameSurroundings s (s.setcc i)

/-- What a read of the Memory Unit gives (20_memory.md R52 to R55): KBSR shows whether a unit is pending and changes
nothing, KBDR takes the oldest unit or holds, every other address is plain storage. The zero bits of KBSR are decision
D6 (log 13), the 8-bit unit and the hold D7 and D8 (logs 11, 14). The two addresses are distinct by the first
hypothesis (00_scope.md R5). -/
def Obligations.MemoryUnitRead : Prop :=
  ∀ s : State, s.config.kbsrAddress ≠ s.config.kbdrAddress →
    s.memRead s.config.kbsrAddress = some (if s.inq = [] then 0x0000 else 0x8000, s) ∧
    (s.inq = [] → s.memRead s.config.kbdrAddress = none) ∧
    (∀ u q, s.inq = u :: q →
      s.memRead s.config.kbdrAddress =
        some (BitVec.ofNat 16 u.toNat, { s with inq := q, taken := s.taken ++ [u] })) ∧
    (∀ a, a ≠ s.config.kbsrAddress → a ≠ s.config.kbdrAddress → s.memRead a = some (s.cell a, s))

/-- A write to any address sets that cell and has no other effect, and a later read of the address gives the value
written unless the read is intercepted (20_memory.md R57). -/
def Obligations.WriteThenRead : Prop :=
  ∀ (s : State) (a v : Word), s.mem.wf = true →
    Stored a v s (s.memWrite a v) ∧
    (a ≠ s.config.kbsrAddress → a ≠ s.config.kbdrAddress → (s.memWrite a v).memRead a = some (v, s.memWrite a v))

/-- A write to KBSR or KBDR has no effect on any read: every read gives what it would have given without the write, and
takes the same unit (20_memory.md R58, decision D9; log 16). -/
def Obligations.DeviceCellIsNeverReadBack : Prop :=
  ∀ (s : State) (d v b : Word), (d = s.config.kbsrAddress ∨ d = s.config.kbdrAddress) →
    (s.memWrite d v).memRead b = (s.memRead b).map (fun r => (r.1, r.2.memWrite d v))

/-! ## Operate instructions and LEA -/

/-- ADD, register form (41_operate.md R140): its word decodes to it whatever the ignored bits, and it answers the state
with `x[DR]` = the sum modulo 2^16 and the flags of the sum, nothing else changed. -/
def Obligations.AddRegisterResult : Prop :=
  ∀ (dr sr1 sr2 : Reg) (ign : BitVec 2) (s : State),
    decode (0b0001#4 ++ dr.bits ++ sr1.bits ++ 0b0#1 ++ ign ++ sr2.bits) = .addReg dr sr1 sr2 ign ∧
    ∃ t, exec (.addReg dr sr1 sr2 ign) s = .next t ∧
      WroteDest dr (BitVec.ofNat 16 (((s.reg sr1).toNat + (s.reg sr2).toNat) % 65536)) s t

/-- ADD, immediate form (41_operate.md R141): the immediate ranges over -16 to 15. -/
def Obligations.AddImmediateResult : Prop :=
  ∀ (dr sr1 : Reg) (imm5 : BitVec 5) (s : State),
    decode (0b0001#4 ++ dr.bits ++ sr1.bits ++ 0b1#1 ++ imm5) = .addImm dr sr1 imm5 ∧
    ∃ t, exec (.addImm dr sr1 imm5) s = .next t ∧
      WroteDest dr (BitVec.ofInt 16 ((s.reg sr1).toInt + imm5.toInt)) s t

/-- AND, register form (41_operate.md R144), bit by bit. -/
def Obligations.AndRegisterResult : Prop :=
  ∀ (dr sr1 sr2 : Reg) (ign : BitVec 2) (s : State),
    decode (0b0101#4 ++ dr.bits ++ sr1.bits ++ 0b0#1 ++ ign ++ sr2.bits) = .andReg dr sr1 sr2 ign ∧
    ∃ t v, exec (.andReg dr sr1 sr2 ign) s = .next t ∧ WroteDest dr v s t ∧
      ∀ k, v.getLsbD k = ((s.reg sr1).getLsbD k && (s.reg sr2).getLsbD k)

/-- AND, immediate form (41_operate.md R145): the immediate is sign-extended before the AND, so its top bit stands in
bits 15:4. -/
def Obligations.AndImmediateResult : Prop :=
  ∀ (dr sr1 : Reg) (imm5 : BitVec 5) (s : State),
    decode (0b0101#4 ++ dr.bits ++ sr1.bits ++ 0b1#1 ++ imm5) = .andImm dr sr1 imm5 ∧
    ∃ t v, exec (.andImm dr sr1 imm5) s = .next t ∧ WroteDest dr v s t ∧
      ∀ k, k < 16 → v.getLsbD k = ((s.reg sr1).getLsbD k && imm5.getLsbD (min k 4))

/-- NOT (41_operate.md R148): the complement is `0xFFFF - x[SR]`. -/
def Obligations.NotResult : Prop :=
  ∀ (dr sr : Reg) (ign : BitVec 6) (s : State),
    decode (0b1001#4 ++ dr.bits ++ sr.bits ++ ign) = .not dr sr ign ∧
    ∃ t, exec (.not dr sr ign) s = .next t ∧ WroteDest dr (BitVec.ofNat 16 (0xFFFF - (s.reg sr).toNat)) s t

/-- LEA (42_data_movement.md R166): the address written is the incremented pc plus the signed offset modulo 2^16, no
memory is read, and the flags are set from it. -/
def Obligations.LeaResult : Prop :=
  ∀ (dr : Reg) (off9 : BitVec 9) (s : State),
    decode (0b1110#4 ++ dr.bits ++ off9) = .lea dr off9 ∧
    ∃ t, exec (.lea dr off9) s = .next t ∧ WroteDest dr (BitVec.ofInt 16 ((s.pc.toNat : Int) + off9.toInt)) s t

/-! ## Loads and stores -/

/-- LD and LDR (42_data_movement.md R160, R164) where the read of the Memory Unit completes: `x[DR]` and the flags are
those of the value read, and nothing else changes but the unit a read of KBDR takes (`u` is the state after the read).
The opcode numbers are decision D1 (log 7). -/
def Obligations.LoadResults : Prop :=
  (∀ (dr : Reg) (off9 : BitVec 9) (s u : State) (v : Word), s.memRead (s.pc + off9.signExtend 16) = some (v, u) →
    ∃ t, exec (.ld dr off9) s = .next t ∧ WroteDest dr v u t) ∧
  (∀ (dr base : Reg) (off6 : BitVec 6) (s u : State) (v : Word),
    s.memRead (s.reg base + off6.signExtend 16) = some (v, u) →
    ∃ t, exec (.ldr dr base off6) s = .next t ∧ WroteDest dr v u t)

/-- LDI (42_data_movement.md R162): the pointer is read first, then the data at it, each through the Memory Unit (`u` is
the state after the first read, `w` after the second). Opcode number: D1 (log 7). -/
def Obligations.LdiReadsPointerThenData : Prop :=
  ∀ (dr : Reg) (off9 : BitVec 9) (s u w : State) (p v : Word),
    s.memRead (s.pc + off9.signExtend 16) = some (p, u) → u.memRead p = some (v, w) →
    ∃ t, exec (.ldi dr off9) s = .next t ∧ WroteDest dr v w t

/-- A read that holds, in LD, LDR, either read of LDI and the pointer read of STI: the cycle holds there and nothing has
changed since before the read; only LDI's data read comes after another, whose effect stays (`u`)
(40_instruction_cycle.md R125; 00_scope.md R10, decision D8). That the hold is a state in flight is log 11. -/
def Obligations.ReadsHoldAtKbdr : Prop :=
  (∀ (dr : Reg) (off9 : BitVec 9) (s : State), s.memRead (s.pc + off9.signExtend 16) = none →
    exec (.ld dr off9) s = .next { s with hold := some (.load dr) }) ∧
  (∀ (dr base : Reg) (off6 : BitVec 6) (s : State), s.memRead (s.reg base + off6.signExtend 16) = none →
    exec (.ldr dr base off6) s = .next { s with hold := some (.load dr) }) ∧
  (∀ (dr : Reg) (off9 : BitVec 9) (s : State), s.memRead (s.pc + off9.signExtend 16) = none →
    exec (.ldi dr off9) s = .next { s with hold := some (.ldiPointer dr) }) ∧
  (∀ (dr : Reg) (off9 : BitVec 9) (s u : State) (p : Word),
    s.memRead (s.pc + off9.signExtend 16) = some (p, u) → u.memRead p = none →
    exec (.ldi dr off9) s = .next { u with hold := some (.load dr) }) ∧
  (∀ (sr : Reg) (off9 : BitVec 9) (s : State), s.memRead (s.pc + off9.signExtend 16) = none →
    exec (.sti sr off9) s = .next { s with hold := some (.stiPointer sr) })

/-- ST, STR and STI (42_data_movement.md R170, R174, R172): the cell at the effective address holds `x[SR]`, nothing else
changes; the address of STI is the pointer it reads first, and `u` is the state after that read. Opcode numbers and the
place of SR: D1, D2 (logs 7, 8). -/
def Obligations.StoreResults : Prop :=
  (∀ (sr : Reg) (off9 : BitVec 9) (s : State), s.mem.wf = true →
    ∃ t, exec (.st sr off9) s = .next t ∧ Stored (s.pc + off9.signExtend 16) (s.reg sr) s t) ∧
  (∀ (sr base : Reg) (off6 : BitVec 6) (s : State), s.mem.wf = true →
    ∃ t, exec (.str sr base off6) s = .next t ∧ Stored (s.reg base + off6.signExtend 16) (s.reg sr) s t) ∧
  (∀ (sr : Reg) (off9 : BitVec 9) (s u : State) (p : Word), s.mem.wf = true →
    s.memRead (s.pc + off9.signExtend 16) = some (p, u) →
    ∃ t, exec (.sti sr off9) s = .next t ∧ Stored p (s.reg sr) u t)

/-- After a load or LEA that completes, exactly one flag is set, that of the register written; after a store, flags and
registers are unchanged (42_data_movement.md R176). -/
def Obligations.DataMovementFlags : Prop :=
  ∀ (dr base : Reg) (off9 : BitVec 9) (off6 : BitVec 6) (s t : State),
    (s.hold = none → t.hold = none →
      (exec (.ld dr off9) s = .next t ∨ exec (.ldi dr off9) s = .next t ∨ exec (.ldr dr base off6) s = .next t ∨
        exec (.lea dr off9) s = .next t) →
      FlagOf (t.reg dr) t.cond ∧ (t.cond = 0b100 ∨ t.cond = 0b010 ∨ t.cond = 0b001)) ∧
    ((exec (.st dr off9) s = .next t ∨ exec (.sti dr off9) s = .next t ∨ exec (.str dr base off6) s = .next t) →
      t.cond = s.cond ∧ SameRegs s t)

/-! ## Control -/

/-- BR (43_control.md R190): taken iff a condition bit faces the flag that is set; then the pc is the incremented pc plus
the signed offset, otherwise it stays; nothing else changes, and with no flag set it is never taken. That N is the top
bit and P the bottom one is decision D3 (log 6). The second clause is the AND test itself, for any `cond`. -/
def Obligations.BranchRule : Prop :=
  (∀ (n z p : Bool) (off9 : BitVec 9) (s : State),
    (s.cond = 0b100 ∨ s.cond = 0b010 ∨ s.cond = 0b001 ∨ s.cond = 0b000) →
    ∃ t, exec (.br (BitVec.ofBool n ++ BitVec.ofBool z ++ BitVec.ofBool p) off9) s = .next t ∧
      (((n = true ∧ s.cond = 0b100) ∨ (z = true ∧ s.cond = 0b010) ∨ (p = true ∧ s.cond = 0b001)) →
        Jumped (BitVec.ofInt 16 ((s.pc.toNat : Int) + off9.toInt)) s t) ∧
      (¬ ((n = true ∧ s.cond = 0b100) ∨ (z = true ∧ s.cond = 0b010) ∨ (p = true ∧ s.cond = 0b001)) → t = s)) ∧
  ∀ (nzp : BitVec 3) (off9 : BitVec 9) (s : State),
    ∃ t, exec (.br nzp off9) s = .next t ∧
      Jumped (if nzp &&& s.cond = 0 then s.pc else s.pc + off9.signExtend 16) s t

/-- JMP, RET included (43_control.md R194): the pc is `x[BaseR]`, nothing else changes. Opcode number and the place of
BaseR: D1, D2 (logs 7, 8). -/
def Obligations.JumpResult : Prop :=
  ∀ (base : Reg) (ignHi : BitVec 3) (ignLo : BitVec 6) (s : State),
    ∃ t, exec (.jmp base ignHi ignLo) s = .next t ∧ Jumped (s.reg base) s t

/-- JSR (43_control.md R196): `x[7]` is the incremented pc, the pc that plus the signed 11-bit offset (the width is
decision D24, log 9). -/
def Obligations.JsrResult : Prop :=
  ∀ (off11 : BitVec 11) (s : State),
    ∃ t, exec (.jsr off11) s = .next t ∧ Called (BitVec.ofInt 16 ((s.pc.toNat : Int) + off11.toInt)) s t

/-- JSRR (43_control.md R198): `x[7]` is written first and the base register read after it, so `JSRR R7` falls through.
The order is decision D12 (log 18). -/
def Obligations.JsrrResult : Prop :=
  ∀ (base : Reg) (ignHi : BitVec 2) (ignLo : BitVec 6) (s : State),
    ∃ t, exec (.jsrr base ignHi ignLo) s = .next t ∧ Called (if base = .r7 then s.pc else s.reg base) s t

/-- After BR, JMP, JSR, JSRR flags are unchanged; BR and JMP write no register; JSR and JSRR write `x[7]` and no other
register or cell (43_control.md R202). -/
def Obligations.ControlFlagsAndRegisters : Prop :=
  ∀ (i : Instr) (s t : State), exec i s = .next t →
    ((∃ nzp off9, i = .br nzp off9) ∨ (∃ b h l, i = .jmp b h l) → t.cond = s.cond ∧ SameRegs s t ∧ SameCells s t) ∧
    ((∃ off11, i = .jsr off11) ∨ (∃ b h l, i = .jsrr b h l) →
      t.cond = s.cond ∧ t.reg .r7 = s.pc ∧ SameRegsBut .r7 s t ∧ SameCells s t)

/-! ## TRAP, RTI, RESERVED -/

/-- GETC with a unit pending (44_trap_and_system.md R212): the oldest unit, zero-extended, in `x[0]`, nothing on the
console, no flag. Decisions D7, D8, D11, D14 (logs 11, 14, 15, 19). -/
def Obligations.GetcResult : Prop :=
  ∀ (ign : BitVec 4) (s : State) (u : Byte) (q : List Byte), s.inq = u :: q →
    ∃ t, exec (.trap 0x20 ign) s = .next t ∧ Trapped s t ∧ t.reg .r0 = BitVec.ofNat 16 u.toNat ∧ t.inq = q ∧
      t.taken = s.taken ++ [u] ∧ t.out = s.out ∧ t.running = s.running ∧ t.hold = s.hold

/-- OUT (44_trap_and_system.md R214): bits 7:0 of `x[0]` to the console, `x[0]` unchanged. Decision D14 (log 19). -/
def Obligations.OutResult : Prop :=
  ∀ (ign : BitVec 4) (s : State),
    ∃ t, exec (.trap 0x21 ign) s = .next t ∧ Trapped s t ∧ t.reg .r0 = s.reg .r0 ∧ t.inq = s.inq ∧
      t.taken = s.taken ∧ t.out = s.out ++ [BitVec.ofNat 8 ((s.reg .r0).toNat % 256)] ∧ t.running = s.running ∧
      t.hold = s.hold

/-- PUTS on a string of plain cells that ends in a zero cell (44_trap_and_system.md R216): the low byte of each cell
before the zero one, in address order modulo 2^16; `x[0]` unchanged. Decision D15 (log 20). -/
def Obligations.PutsPrintsString : Prop :=
  ∀ (ign : BitVec 4) (s : State) (ws : List Word),
    (∀ k (h : k < ws.length), s.cell (s.reg .r0 + BitVec.ofNat 16 k) = ws[k] ∧ ws[k] ≠ 0) →
    s.cell (s.reg .r0 + BitVec.ofNat 16 ws.length) = 0 →
    (∀ k, k ≤ ws.length → s.intercepted (s.reg .r0 + BitVec.ofNat 16 k) = false) →
    ∃ t, exec (.trap 0x22 ign) s = .next t ∧ Trapped s t ∧ t.reg .r0 = s.reg .r0 ∧ t.inq = s.inq ∧
      t.taken = s.taken ∧ t.out = s.out ++ ws.map (fun w => BitVec.ofNat 8 (w.toNat % 256)) ∧
      t.running = s.running ∧ t.hold = s.hold

/-- PUTS from any address over any memory either ends or holds at KBDR with nothing pending; it takes units in order and
only appends to the console; nothing else changes but `x[7]`. So the bound on its reads never cuts it short
(44_trap_and_system.md R216; 93_implementation_defined.md U20; log 20). -/
def Obligations.PutsEndsOrHoldsAtKbdr : Prop :=
  ∀ (ign : BitVec 4) (s : State), s.config.legal = true → s.hold = none →
    ∃ t, exec (.trap 0x22 ign) s = .next t ∧ Trapped s t ∧ t.reg .r0 = s.reg .r0 ∧ t.running = s.running ∧
      (∃ k, s.inq = k ++ t.inq ∧ t.taken = s.taken ++ k) ∧ (∃ emitted, t.out = s.out ++ emitted) ∧
      (t.hold = none ∨ (t.hold = some (.puts s.config.kbdrAddress) ∧ t.inq = []))

/-- IN with a unit pending (44_trap_and_system.md R218): the prompt, then the echo, on the console, the unit
zero-extended in `x[0]`. Decisions D7, D8, D14, D16 (logs 11, 14, 19, 21). -/
def Obligations.InResult : Prop :=
  ∀ (ign : BitVec 4) (s : State) (u : Byte) (q : List Byte), s.inq = u :: q →
    ∃ t, exec (.trap 0x23 ign) s = .next t ∧ Trapped s t ∧ t.reg .r0 = BitVec.ofNat 16 u.toNat ∧ t.inq = q ∧
      t.taken = s.taken ++ [u] ∧ t.out = s.out ++ s.config.inPrompt ++ [u] ∧ t.running = s.running ∧ t.hold = s.hold

/-- HALT (44_trap_and_system.md R220): the halt notice on the console and `running` = 0, nothing else but `x[7]`.
Decisions D14, D17 (logs 5, 19). -/
def Obligations.HaltResult : Prop :=
  ∀ (ign : BitVec 4) (s : State),
    ∃ t, exec (.trap 0x25 ign) s = .next t ∧ Trapped s t ∧ t.reg .r0 = s.reg .r0 ∧ t.inq = s.inq ∧
      t.taken = s.taken ∧ t.out = s.out ++ s.config.haltNotice ∧ t.running = false ∧ t.hold = s.hold

/-- TRAP with any other vector writes `x[7]` and nothing else (44_trap_and_system.md R222). Decision D14 (log 19). -/
def Obligations.UnmappedVectorResult : Prop :=
  ∀ (v : Byte) (ign : BitVec 4) (s : State), v ≠ 0x20 → v ≠ 0x21 → v ≠ 0x22 → v ≠ 0x23 → v ≠ 0x25 →
    ∃ t, exec (.trap v ign) s = .next t ∧ Trapped s t ∧ t.reg .r0 = s.reg .r0 ∧ SameSurroundings s t

/-- GETC and IN with nothing pending hold with `x[7]` written, `x[0]` not, and for IN the prompt on the console
(40_instruction_cycle.md R125). Decision D8; the hold is a state in flight (log 11). -/
def Obligations.GetcAndInHold : Prop :=
  ∀ (ign : BitVec 4) (s : State), s.inq = [] →
    (∃ t, exec (.trap 0x20 ign) s = .next t ∧ Trapped s t ∧ t.reg .r0 = s.reg .r0 ∧ t.inq = [] ∧
      t.taken = s.taken ∧ t.out = s.out ∧ t.running = s.running ∧ t.hold = some .getc) ∧
    (∃ t, exec (.trap 0x23 ign) s = .next t ∧ Trapped s t ∧ t.reg .r0 = s.reg .r0 ∧ t.inq = [] ∧
      t.taken = s.taken ∧ t.out = s.out ++ s.config.inPrompt ∧ t.running = s.running ∧ t.hold = some .inTake)

/-- RTI and RESERVED (44_trap_and_system.md R230, R232): no effect at all. Opcode number of RTI: D1 (log 7); that they do
not fault: D23 (log 35). -/
def Obligations.NoOpInstructions : Prop :=
  ∀ (ign : BitVec 12) (s : State), exec (.rti ign) s = .next s ∧ exec (.reserved ign) s = .next s

/-- Executing RTI and RESERVED any number of times changes no state except the pc, which advances by one for each
(40_instruction_cycle.md R129): `n` steps over `n` plain cells that hold such words. -/
def Obligations.NoOpsAnyNumberOfTimes : Prop :=
  ∀ (n : Nat) (s : State), s.hold = none → s.running = true → s.stopReq = false →
    (∀ k, k < n → s.intercepted (s.pc + BitVec.ofNat 16 k) = false ∧
      ∃ ign, decode (s.cell (s.pc + BitVec.ofNat 16 k)) = .rti ign ∨
        decode (s.cell (s.pc + BitVec.ofNat 16 k)) = .reserved ign) →
    Host.Core.run Sys2Proof.core n s = .next (s.setPc (s.pc + BitVec.ofNat 16 n))

/-! ## The cycle -/

/-- At a running boundary with no stop request, a step fetches through the Memory Unit, increments the pc once and runs
the decoded instruction; if the fetch holds, nothing has changed but the hold (40_instruction_cycle.md R121 to R125).
That the fetch is intercepted is decision D10 (log 17). -/
def Obligations.StepRunsDecodedInstruction : Prop :=
  ∀ s : State, s.hold = none → s.running = true → s.stopReq = false →
    (∀ ir u, s.memRead s.pc = some (ir, u) → step s = exec (decode ir) { u with pc := s.pc + 1 }) ∧
    (s.memRead s.pc = none → step s = .next { s with hold := some .fetch })

/-- A held cycle goes on, with a unit pending, from its hold point: the fetch, the loads, the pointer reads, PUTS and the
two `InTake`s (40_instruction_cycle.md R125, derived there). LDI goes on with the data read at the pointer it has taken,
which completes or holds in turn; PUTS ends at a zero unit, and otherwise writes the unit and goes on as from the next
address, to its end or to its next hold at KBDR with nothing pending. Log 11. -/
def Obligations.HeldCycleGoesOn : Prop :=
  ∀ (s : State) (u : Byte) (q : List Byte), s.config.legal = true → s.inq = u :: q →
    (s.hold = some .fetch → s.pc = s.config.kbdrAddress →
      step s = exec (decode (BitVec.ofNat 16 u.toNat)) { s.tookUnit u q with pc := s.pc + 1 }) ∧
    (∀ dr, s.hold = some (.load dr) →
      ∃ t, step s = .next t ∧ WroteDest dr (BitVec.ofNat 16 u.toNat) (s.tookUnit u q) t) ∧
    (∀ sr, s.hold = some (.stiPointer sr) → s.mem.wf = true →
      ∃ t, step s = .next t ∧ Stored (BitVec.ofNat 16 u.toNat) (s.reg sr) (s.tookUnit u q) t) ∧
    (∀ dr, s.hold = some (.ldiPointer dr) →
      (∀ v w, (s.tookUnit u q).memRead (BitVec.ofNat 16 u.toNat) = some (v, w) →
        ∃ t, step s = .next t ∧ WroteDest dr v w t) ∧
      ((s.tookUnit u q).memRead (BitVec.ofNat 16 u.toNat) = none →
        step s = .next { s.tookUnit u q with hold := some (.load dr) })) ∧
    (∀ a, s.hold = some (.puts a) → a = s.config.kbdrAddress →
      (u = 0 → step s = .next (s.tookUnit u q)) ∧
      (u ≠ 0 →
        step s = putsFrom (a + 1) { s.tookUnit u q with out := s.out ++ [u] } ∧
        ∃ t emitted, step s = .next t ∧ t.out = s.out ++ u :: emitted ∧ SameRegs s t ∧ t.cond = s.cond ∧
          t.pc = s.pc ∧ SameCells s t ∧ t.running = s.running ∧
          (∃ k, q = k ++ t.inq ∧ t.taken = s.taken ++ u :: k) ∧
          (t.hold = none ∨ (t.hold = some (.puts s.config.kbdrAddress) ∧ t.inq = [])))) ∧
    (s.hold = some .getc →
      ∃ t, step s = .next t ∧ t.reg .r0 = BitVec.ofNat 16 u.toNat ∧ SameRegsBut .r0 s t ∧ t.cond = s.cond ∧
        t.pc = s.pc ∧ t.out = s.out ∧ t.inq = q ∧ t.taken = s.taken ++ [u] ∧ t.hold = none ∧ SameCells s t) ∧
    (s.hold = some .inTake →
      ∃ t, step s = .next t ∧ t.reg .r0 = BitVec.ofNat 16 u.toNat ∧ SameRegsBut .r0 s t ∧ t.cond = s.cond ∧
        t.pc = s.pc ∧ t.out = s.out ++ [u] ∧ t.inq = q ∧ t.taken = s.taken ++ [u] ∧ t.hold = none ∧ SameCells s t)

/-- Only the arrival of a unit ends a hold, only reset ends HALTED, and all state is kept meanwhile (60_exceptions.md R256;
00_scope.md R10, decisions D8, D18, D20). A step of a core that holds with nothing pending answers the same state (log 11).
Whatever happens to a system whose core holds, it is the cycle that goes on with a pending unit, or the arrival of a unit,
or it changes at most the stop request: reset cannot come there (log 38). Whatever happens to a system whose core is
HALTED, it is reset, or the arrival of a unit, or it changes at most the stop request. In states that meet the
invariants. -/
def Obligations.HeldCoreWaits : Prop :=
  (∀ s : State, s.Inv → s.hold ≠ none → s.inq = [] → step s = .next s) ∧
  (∀ (y z : System) (e : Event), y.Inv → y.core.hold ≠ none → y.apply e = some z →
    (e = .cycle ∧ y.core.inq ≠ []) ∨ (∃ u, e = .deliver u ∧ z.core = y.core.deliver u) ∨
      ∃ b, z.core = y.core.setStopReq b) ∧
  (∀ (y z : System) (e : Event), y.Inv → y.core.running = false → y.apply e = some z →
    (e = .reset ∧ z.core = y.core.afterReset) ∨ (∃ u, e = .deliver u ∧ z.core = y.core.deliver u) ∨
      ∃ b, z.core = y.core.setStopReq b)

/-- The stop request (10_state.md R34): raised at a boundary of a running core it clears `running` without a fetch and
changes nothing else; a core that holds does not see it, and no instruction looks at it: what they do is the same whatever
the request. That it clears `running` and nothing else is decision D18 (log 22), the step of a held core log 11. -/
def Obligations.StopRequestOnlyAtBoundary : Prop :=
  ∀ s : State,
    (s.hold = none → s.running = true → s.stopReq = true → step s = .next { s with running := false }) ∧
    (s.hold ≠ none → ∀ b, step (s.setStopReq b) = mapNext (fun t => t.setStopReq b) (step s)) ∧
    ∀ i b, exec i (s.setStopReq b) = mapNext (fun t => t.setStopReq b) (exec i s)

/-- Every step answers a next state, but for a HALTED core, which has no step: no step faults otherwise and none is
refused (00_scope.md R10, decision D8; HALTED as `fault halted` is log 12). -/
def Obligations.StepIsTotalButHalted : Prop :=
  ∀ s : State,
    (s.hold = none ∧ s.running = false → step s = .fault .halted) ∧
    (¬ (s.hold = none ∧ s.running = false) → ∃ t, step s = .next t)

/-- The two transitions to HALTED (40_instruction_cycle.md R126): a running core is HALTED after a step exactly when the
step took a stop request at a boundary or executed the HALT service; the launch state is RUNNING with `pc` =
`0x3000`. -/
def Obligations.OnlyHaltAndStopEndTheRun : Prop :=
  (∀ c q b, (State.launch c q b).running = true ∧ (State.launch c q b).pc = 0x3000) ∧
  ∀ s t : State, s.Inv → s.running = true → step s = .next t →
    (t.running = false ↔
      (s.hold = none ∧ s.stopReq = true) ∨
      (s.hold = none ∧ ∃ ir u ign, s.memRead s.pc = some (ir, u) ∧ decode ir = .trap 0x25 ign))

/-- Scenario 7 of the source: a fetched HALT word halts the core, with the pc and `x[7]` at the next address and the
notice written, and there is no further step (44_trap_and_system.md R220; 40_instruction_cycle.md R127). Decisions D17,
D18 (logs 5, 12, 22). -/
def Obligations.HaltWordEndsTheRun : Prop :=
  ∀ (s u : State) (ir : Word) (ign : BitVec 4), s.hold = none → s.running = true → s.stopReq = false →
    s.memRead s.pc = some (ir, u) → decode ir = .trap 0x25 ign →
    ∃ t, step s = .next t ∧ t.running = false ∧ t.pc = s.pc + 1 ∧ t.reg .r7 = s.pc + 1 ∧
      t.out = s.out ++ s.config.haltNotice ∧ step t = .fault .halted

/-- A stored word is what the next cycle fetches, with nothing in between: self-modifying code works (20_memory.md R68,
derived there), at any plain address. -/
def Obligations.StoredWordIsFetchedNext : Prop :=
  ∀ (s : State) (v : Word), s.mem.wf = true → s.hold = none → s.running = true → s.stopReq = false →
    s.intercepted s.pc = false →
    step (s.memWrite s.pc v) = exec (decode v) { s.memWrite s.pc v with pc := s.pc + 1 }

/-- A hold and then an arrival comes to the same state as the arrival before the cycle: GETC, IN, LD and LDR at KBDR, the
pointer read of LDI and of STI at KBDR, the data read of LDI at KBDR after a plain pointer read, and the fetch (the remark
after 00_scope.md R10; log 11). PUTS, and an LDI whose pointer read is KBSR, are outside: there the arrival can change an
earlier read of the same cycle. -/
def Obligations.HoldThenArrivalIsArrivalFirst : Prop :=
  ∀ (s : State) (u : Byte), s.hold = none → s.inq = [] → s.config.legal = true →
    (∀ ign, ∃ t, exec (.trap 0x20 ign) s = .next t ∧ step (t.deliver u) = exec (.trap 0x20 ign) (s.deliver u)) ∧
    (∀ ign, ∃ t, exec (.trap 0x23 ign) s = .next t ∧ step (t.deliver u) = exec (.trap 0x23 ign) (s.deliver u)) ∧
    (∀ dr off9, s.pc + off9.signExtend 16 = s.config.kbdrAddress →
      ∃ t, exec (.ld dr off9) s = .next t ∧ step (t.deliver u) = exec (.ld dr off9) (s.deliver u)) ∧
    (∀ dr base off6, s.reg base + off6.signExtend 16 = s.config.kbdrAddress →
      ∃ t, exec (.ldr dr base off6) s = .next t ∧ step (t.deliver u) = exec (.ldr dr base off6) (s.deliver u)) ∧
    (∀ dr off9, s.pc + off9.signExtend 16 = s.config.kbdrAddress →
      ∃ t, exec (.ldi dr off9) s = .next t ∧ step (t.deliver u) = exec (.ldi dr off9) (s.deliver u)) ∧
    (∀ dr off9, s.intercepted (s.pc + off9.signExtend 16) = false →
      s.cell (s.pc + off9.signExtend 16) = s.config.kbdrAddress →
      ∃ t, exec (.ldi dr off9) s = .next t ∧ step (t.deliver u) = exec (.ldi dr off9) (s.deliver u)) ∧
    (∀ sr off9, s.pc + off9.signExtend 16 = s.config.kbdrAddress →
      ∃ t, exec (.sti sr off9) s = .next t ∧ step (t.deliver u) = exec (.sti sr off9) (s.deliver u)) ∧
    (s.running = true → s.stopReq = false → s.pc = s.config.kbdrAddress →
      ∃ t, step s = .next t ∧ step (t.deliver u) = step (s.deliver u))

/-! ## Rules of the whole machine -/

/-- Only BR, JMP, JSR and JSRR write the pc after the fetch's increment; TRAP, RTI and RESERVED do not
(10_state.md R23). -/
def Obligations.OnlyControlTransfersWritePc : Prop :=
  ∀ (i : Instr) (s t : State), exec i s = .next t →
    (∀ nzp off9, i ≠ .br nzp off9) → (∀ b h l, i ≠ .jmp b h l) → (∀ off11, i ≠ .jsr off11) →
    (∀ b h l, i ≠ .jsrr b h l) → t.pc = s.pc

/-- The seven flag-setting instructions, when they complete, set `cond` from their destination register, and no other
instruction changes `cond` (10_state.md R27). The third clause, that one whose read holds has not changed `cond` yet, rests
on the hold as a state in flight (40_instruction_cycle.md R125, decision D8; log 11). -/
def Obligations.OnlySevenInstructionsSetFlags : Prop :=
  ∀ (i : Instr) (s t : State), exec i s = .next t →
    (i.flagDest = none → t.cond = s.cond) ∧
    (∀ dr, i.flagDest = some dr → s.hold = none → t.hold = none → FlagOf (t.reg dr) t.cond) ∧
    (∀ dr, i.flagDest = some dr → t.hold ≠ s.hold → t.cond = s.cond)

/-- Each instruction writes only the registers the table of 10_state.md R21 gives it. -/
def Obligations.OnlyListedRegistersAreWritten : Prop :=
  ∀ (i : Instr) (s t : State), exec i s = .next t → ∀ r, i.mayWrite r = false → t.reg r = s.reg r

/-- Every cell but the one at the address stored to reads as before; a form that stores nothing leaves every cell
(20_memory.md R62; 42_data_movement.md R176). -/
def Obligations.OnlyTheStoreAddressIsWritten : Prop :=
  ∀ (i : Instr) (s t : State), exec i s = .next t →
    ∀ b, i.storeAddress s ≠ some b → t.cell b = s.cell b

/-- The only reader of `cond` is BR: any other instruction started with another `cond` comes to the same state, up to a
`cond` it has not set (10_state.md R28), so no instruction copies `cond` anywhere; and a flag-setting instruction that
completes leaves exactly one flag set, that of the register it wrote. -/
def Obligations.OnlyBranchReadsCond : Prop :=
  ∀ (i : Instr) (s t : State) (c : BitVec 3), exec i s = .next t →
    ((∀ nzp off9, i ≠ .br nzp off9) →
      ∃ t', exec i (s.setCond c) = .next t' ∧
        (t' = t.setCond c ∨ (t' = t ∧ ∃ dr, i.flagDest = some dr))) ∧
    (∀ dr, i.flagDest = some dr → s.hold = none → t.hold = none →
      (t.cond = 0b100 ∨ t.cond = 0b010 ∨ t.cond = 0b001) ∧ FlagOf (t.reg dr) t.cond)

/-- In every step, the input units are taken oldest first and recorded as taken, the console stream only grows at its end,
and the stop request and the build are not changed (10_state.md R32, R33, R35, decisions D11, D27; logs 2, 15, 37). -/
def Obligations.InputInOrderConsoleAppends : Prop :=
  ∀ s t : State, step s = .next t →
    (∃ k, s.inq = k ++ t.inq ∧ t.taken = s.taken ++ k) ∧ (∃ emitted, t.out = s.out ++ emitted) ∧
    t.stopReq = s.stopReq ∧ t.config = s.config

/-! ## Reset, launch, invariants -/

/-- Reset (70_reset_and_hazards.md R260; 10_state.md R40): registers and cells zero, `pc` = `0x3000`, `running` = 1,
`cond` = `COND_RESET`, the console empty, what belongs to the environment untouched; the parameters stay the build's. That
the record of the units taken starts empty is log 37; that reset comes at a cycle boundary and leaves the core at one is
log 38. -/
def Obligations.ResetLeaves : Prop :=
  ∀ s : State,
    (∀ r, s.afterReset.reg r = 0x0000) ∧ (∀ a, s.afterReset.cell a = 0x0000) ∧ s.afterReset.pc = 0x3000 ∧
    s.afterReset.running = true ∧ s.afterReset.cond = s.config.condReset ∧ s.afterReset.out = [] ∧
    s.afterReset.inq = s.inq ∧ s.afterReset.taken = [] ∧ s.afterReset.stopReq = s.stopReq ∧ s.afterReset.hold = none ∧
    s.afterReset.config = s.config

/-- The image load (70_reset_and_hazards.md R263): the words stand at consecutive addresses from the origin, modulo 2^16,
every other cell and the rest of the state, the pc included, is as before. Decision D22 (log 32). -/
def Obligations.ImageLoadPlacesWords : Prop :=
  ∀ (s : State) (origin : Word) (ws : List Word), s.mem.wf = true → ws.length ≤ 65536 →
    (∀ k (h : k < ws.length), (s.loadImage (origin :: ws)).cell (origin + BitVec.ofNat 16 k) = ws[k]) ∧
    (∀ a, (∀ k, k < ws.length → a ≠ origin + BitVec.ofNat 16 k) → (s.loadImage (origin :: ws)).cell a = s.cell a) ∧
    SameRegs s (s.loadImage (origin :: ws)) ∧ (s.loadImage (origin :: ws)).pc = s.pc ∧
    (s.loadImage (origin :: ws)).cond = s.cond ∧ SameSurroundings s (s.loadImage (origin :: ws))

/-- The launch state of every legal build and environment meets the invariant, and so does `State.reset`. -/
def Obligations.LaunchMeetsInvariant : Prop :=
  (∀ (c : Config) (q : List Byte) (b : Bool), c.legal = true → (State.launch c q b).Inv) ∧ State.reset.Inv

/-- A step keeps the invariant: memory in canonical form, a legal condition code (10_state.md R24), a legal hold with
what R125 of 40_instruction_cycle.md says has been done before it, legal parameters. -/
def Obligations.StepKeepsInvariant : Prop := ∀ s t : State, s.Inv → step s = .next t → t.Inv

/-- Whatever the core, the input source and the host do, in any order in which it can happen, the system keeps its
invariant: that of the core, that the units taken and then those pending are the units the input source supplied
(10_state.md R31, R32, R35; log 37), and that a core that has not run since reset is RUNNING, at a cycle boundary
(10_state.md R30; 70_reset_and_hazards.md R263; logs 27, 38). -/
def Obligations.EveryRunKeepsInvariant : Prop :=
  ∀ (es : List Event) (y z : System), y.Inv → y.run es = some z → z.Inv
end

