-- ==== Sys2Proof/Laws/Decode.lean ====
section
/-! SUPPORT. Small lemmas of the decoder and the encoder: register and opcode numbers are one-to-one, and a slice is
its bits. -/

namespace Sys2Proof

@[simp] theorem Reg.ofBits_bits (r : Reg) : Reg.ofBits r.bits = r := by cases r <;> rfl

@[simp] theorem Reg.bits_ofBits (b : BitVec 3) : (Reg.ofBits b).bits = b := by revert b; decide

@[simp] theorem Opcode.ofBits_bits (o : Opcode) : Opcode.ofBits o.bits = o := by cases o <;> rfl

@[simp] theorem Opcode.bits_ofBits (b : BitVec 4) : (Opcode.ofBits b).bits = b := by revert b; decide

/-- A slice is the vector whose bits are the word's from `lo` on. -/
theorem slice_eq {v : Word} {lo len : Nat} {x : BitVec len} (h : ∀ i, i < len → v.getLsbD (lo + i) = x.getLsbD i) :
    slice v lo len = x := by
  apply BitVec.eq_of_getLsbD_eq
  intro i hi
  simp only [slice, BitVec.getLsbD_extractLsb', hi, decide_true, Bool.true_and, h i hi]

/-- The bits of a slice. -/
theorem slice_getLsbD (v : Word) (lo len i : Nat) : (slice v lo len).getLsbD i = (decide (i < len) && v.getLsbD (lo + i)) := by
  simp only [slice, BitVec.getLsbD_extractLsb']

/-- The register at `lo`, from the bits there. -/
theorem regAt_eq {v : Word} {lo : Nat} {r : Reg} (h : ∀ i, i < 3 → v.getLsbD (lo + i) = r.bits.getLsbD i) :
    regAt v lo = r := by
  rw [regAt, slice_eq h, Reg.ofBits_bits]

/-- The opcode's number is the top four bits. -/
theorem opcode_eq {v : Word} {o : Opcode} (h : ∀ i, i < 4 → v.getLsbD (12 + i) = o.bits.getLsbD i) :
    Opcode.ofBits (slice v 12 4) = o := by
  rw [slice_eq h, Opcode.ofBits_bits]

end Sys2Proof
end

