-- ==== Sys2Proof/Laws/State.lean ====
section
/-! SUPPORT. One lemma for each field of each update of the state, so that no later proof unfolds a record update; then
the derived updates (a register, a cell, a console byte, the flags), and the lookups the operand forms make. -/

namespace Sys2Proof.Machine

variable (s : State)

@[simp] theorem State.setPc_regs (v : Word) : (s.setPc v).regs = s.regs := rfl
@[simp] theorem State.setPc_pc (v : Word) : (s.setPc v).pc = v := rfl
@[simp] theorem State.setPc_cond (v : Word) : (s.setPc v).cond = s.cond := rfl
@[simp] theorem State.setPc_running (v : Word) : (s.setPc v).running = s.running := rfl
@[simp] theorem State.setPc_mem (v : Word) : (s.setPc v).mem = s.mem := rfl
@[simp] theorem State.setPc_inq (v : Word) : (s.setPc v).inq = s.inq := rfl
@[simp] theorem State.setPc_taken (v : Word) : (s.setPc v).taken = s.taken := rfl
@[simp] theorem State.setPc_out (v : Word) : (s.setPc v).out = s.out := rfl
@[simp] theorem State.setPc_stopReq (v : Word) : (s.setPc v).stopReq = s.stopReq := rfl
@[simp] theorem State.setPc_hold (v : Word) : (s.setPc v).hold = s.hold := rfl
@[simp] theorem State.setPc_config (v : Word) : (s.setPc v).config = s.config := rfl

@[simp] theorem State.setCond_regs (c : BitVec 3) : (s.setCond c).regs = s.regs := rfl
@[simp] theorem State.setCond_pc (c : BitVec 3) : (s.setCond c).pc = s.pc := rfl
@[simp] theorem State.setCond_cond (c : BitVec 3) : (s.setCond c).cond = c := rfl
@[simp] theorem State.setCond_running (c : BitVec 3) : (s.setCond c).running = s.running := rfl
@[simp] theorem State.setCond_mem (c : BitVec 3) : (s.setCond c).mem = s.mem := rfl
@[simp] theorem State.setCond_inq (c : BitVec 3) : (s.setCond c).inq = s.inq := rfl
@[simp] theorem State.setCond_taken (c : BitVec 3) : (s.setCond c).taken = s.taken := rfl
@[simp] theorem State.setCond_out (c : BitVec 3) : (s.setCond c).out = s.out := rfl
@[simp] theorem State.setCond_stopReq (c : BitVec 3) : (s.setCond c).stopReq = s.stopReq := rfl
@[simp] theorem State.setCond_hold (c : BitVec 3) : (s.setCond c).hold = s.hold := rfl
@[simp] theorem State.setCond_config (c : BitVec 3) : (s.setCond c).config = s.config := rfl

@[simp] theorem State.setRunning_regs (b : Bool) : (s.setRunning b).regs = s.regs := rfl
@[simp] theorem State.setRunning_pc (b : Bool) : (s.setRunning b).pc = s.pc := rfl
@[simp] theorem State.setRunning_cond (b : Bool) : (s.setRunning b).cond = s.cond := rfl
@[simp] theorem State.setRunning_running (b : Bool) : (s.setRunning b).running = b := rfl
@[simp] theorem State.setRunning_mem (b : Bool) : (s.setRunning b).mem = s.mem := rfl
@[simp] theorem State.setRunning_inq (b : Bool) : (s.setRunning b).inq = s.inq := rfl
@[simp] theorem State.setRunning_taken (b : Bool) : (s.setRunning b).taken = s.taken := rfl
@[simp] theorem State.setRunning_out (b : Bool) : (s.setRunning b).out = s.out := rfl
@[simp] theorem State.setRunning_stopReq (b : Bool) : (s.setRunning b).stopReq = s.stopReq := rfl
@[simp] theorem State.setRunning_hold (b : Bool) : (s.setRunning b).hold = s.hold := rfl
@[simp] theorem State.setRunning_config (b : Bool) : (s.setRunning b).config = s.config := rfl

@[simp] theorem State.setRegs_regs (r : Regs) : (s.setRegs r).regs = r := rfl
@[simp] theorem State.setRegs_pc (r : Regs) : (s.setRegs r).pc = s.pc := rfl
@[simp] theorem State.setRegs_cond (r : Regs) : (s.setRegs r).cond = s.cond := rfl
@[simp] theorem State.setRegs_running (r : Regs) : (s.setRegs r).running = s.running := rfl
@[simp] theorem State.setRegs_mem (r : Regs) : (s.setRegs r).mem = s.mem := rfl
@[simp] theorem State.setRegs_inq (r : Regs) : (s.setRegs r).inq = s.inq := rfl
@[simp] theorem State.setRegs_taken (r : Regs) : (s.setRegs r).taken = s.taken := rfl
@[simp] theorem State.setRegs_out (r : Regs) : (s.setRegs r).out = s.out := rfl
@[simp] theorem State.setRegs_stopReq (r : Regs) : (s.setRegs r).stopReq = s.stopReq := rfl
@[simp] theorem State.setRegs_hold (r : Regs) : (s.setRegs r).hold = s.hold := rfl
@[simp] theorem State.setRegs_config (r : Regs) : (s.setRegs r).config = s.config := rfl

@[simp] theorem State.setMem_regs (m : Memory) : (s.setMem m).regs = s.regs := rfl
@[simp] theorem State.setMem_pc (m : Memory) : (s.setMem m).pc = s.pc := rfl
@[simp] theorem State.setMem_cond (m : Memory) : (s.setMem m).cond = s.cond := rfl
@[simp] theorem State.setMem_running (m : Memory) : (s.setMem m).running = s.running := rfl
@[simp] theorem State.setMem_mem (m : Memory) : (s.setMem m).mem = m := rfl
@[simp] theorem State.setMem_inq (m : Memory) : (s.setMem m).inq = s.inq := rfl
@[simp] theorem State.setMem_taken (m : Memory) : (s.setMem m).taken = s.taken := rfl
@[simp] theorem State.setMem_out (m : Memory) : (s.setMem m).out = s.out := rfl
@[simp] theorem State.setMem_stopReq (m : Memory) : (s.setMem m).stopReq = s.stopReq := rfl
@[simp] theorem State.setMem_hold (m : Memory) : (s.setMem m).hold = s.hold := rfl
@[simp] theorem State.setMem_config (m : Memory) : (s.setMem m).config = s.config := rfl

@[simp] theorem State.setInq_regs (q : List Byte) : (s.setInq q).regs = s.regs := rfl
@[simp] theorem State.setInq_pc (q : List Byte) : (s.setInq q).pc = s.pc := rfl
@[simp] theorem State.setInq_cond (q : List Byte) : (s.setInq q).cond = s.cond := rfl
@[simp] theorem State.setInq_running (q : List Byte) : (s.setInq q).running = s.running := rfl
@[simp] theorem State.setInq_mem (q : List Byte) : (s.setInq q).mem = s.mem := rfl
@[simp] theorem State.setInq_inq (q : List Byte) : (s.setInq q).inq = q := rfl
@[simp] theorem State.setInq_taken (q : List Byte) : (s.setInq q).taken = s.taken := rfl
@[simp] theorem State.setInq_out (q : List Byte) : (s.setInq q).out = s.out := rfl
@[simp] theorem State.setInq_stopReq (q : List Byte) : (s.setInq q).stopReq = s.stopReq := rfl
@[simp] theorem State.setInq_hold (q : List Byte) : (s.setInq q).hold = s.hold := rfl
@[simp] theorem State.setInq_config (q : List Byte) : (s.setInq q).config = s.config := rfl

@[simp] theorem State.setTaken_regs (k : List Byte) : (s.setTaken k).regs = s.regs := rfl
@[simp] theorem State.setTaken_pc (k : List Byte) : (s.setTaken k).pc = s.pc := rfl
@[simp] theorem State.setTaken_cond (k : List Byte) : (s.setTaken k).cond = s.cond := rfl
@[simp] theorem State.setTaken_running (k : List Byte) : (s.setTaken k).running = s.running := rfl
@[simp] theorem State.setTaken_mem (k : List Byte) : (s.setTaken k).mem = s.mem := rfl
@[simp] theorem State.setTaken_inq (k : List Byte) : (s.setTaken k).inq = s.inq := rfl
@[simp] theorem State.setTaken_taken (k : List Byte) : (s.setTaken k).taken = k := rfl
@[simp] theorem State.setTaken_out (k : List Byte) : (s.setTaken k).out = s.out := rfl
@[simp] theorem State.setTaken_stopReq (k : List Byte) : (s.setTaken k).stopReq = s.stopReq := rfl
@[simp] theorem State.setTaken_hold (k : List Byte) : (s.setTaken k).hold = s.hold := rfl
@[simp] theorem State.setTaken_config (k : List Byte) : (s.setTaken k).config = s.config := rfl

@[simp] theorem State.setOut_regs (o : List Byte) : (s.setOut o).regs = s.regs := rfl
@[simp] theorem State.setOut_pc (o : List Byte) : (s.setOut o).pc = s.pc := rfl
@[simp] theorem State.setOut_cond (o : List Byte) : (s.setOut o).cond = s.cond := rfl
@[simp] theorem State.setOut_running (o : List Byte) : (s.setOut o).running = s.running := rfl
@[simp] theorem State.setOut_mem (o : List Byte) : (s.setOut o).mem = s.mem := rfl
@[simp] theorem State.setOut_inq (o : List Byte) : (s.setOut o).inq = s.inq := rfl
@[simp] theorem State.setOut_taken (o : List Byte) : (s.setOut o).taken = s.taken := rfl
@[simp] theorem State.setOut_out (o : List Byte) : (s.setOut o).out = o := rfl
@[simp] theorem State.setOut_stopReq (o : List Byte) : (s.setOut o).stopReq = s.stopReq := rfl
@[simp] theorem State.setOut_hold (o : List Byte) : (s.setOut o).hold = s.hold := rfl
@[simp] theorem State.setOut_config (o : List Byte) : (s.setOut o).config = s.config := rfl

@[simp] theorem State.setStopReq_regs (b : Bool) : (s.setStopReq b).regs = s.regs := rfl
@[simp] theorem State.setStopReq_pc (b : Bool) : (s.setStopReq b).pc = s.pc := rfl
@[simp] theorem State.setStopReq_cond (b : Bool) : (s.setStopReq b).cond = s.cond := rfl
@[simp] theorem State.setStopReq_running (b : Bool) : (s.setStopReq b).running = s.running := rfl
@[simp] theorem State.setStopReq_mem (b : Bool) : (s.setStopReq b).mem = s.mem := rfl
@[simp] theorem State.setStopReq_inq (b : Bool) : (s.setStopReq b).inq = s.inq := rfl
@[simp] theorem State.setStopReq_taken (b : Bool) : (s.setStopReq b).taken = s.taken := rfl
@[simp] theorem State.setStopReq_out (b : Bool) : (s.setStopReq b).out = s.out := rfl
@[simp] theorem State.setStopReq_stopReq (b : Bool) : (s.setStopReq b).stopReq = b := rfl
@[simp] theorem State.setStopReq_hold (b : Bool) : (s.setStopReq b).hold = s.hold := rfl
@[simp] theorem State.setStopReq_config (b : Bool) : (s.setStopReq b).config = s.config := rfl

@[simp] theorem State.setHold_regs (h : Option Hold) : (s.setHold h).regs = s.regs := rfl
@[simp] theorem State.setHold_pc (h : Option Hold) : (s.setHold h).pc = s.pc := rfl
@[simp] theorem State.setHold_cond (h : Option Hold) : (s.setHold h).cond = s.cond := rfl
@[simp] theorem State.setHold_running (h : Option Hold) : (s.setHold h).running = s.running := rfl
@[simp] theorem State.setHold_mem (h : Option Hold) : (s.setHold h).mem = s.mem := rfl
@[simp] theorem State.setHold_inq (h : Option Hold) : (s.setHold h).inq = s.inq := rfl
@[simp] theorem State.setHold_taken (h : Option Hold) : (s.setHold h).taken = s.taken := rfl
@[simp] theorem State.setHold_out (h : Option Hold) : (s.setHold h).out = s.out := rfl
@[simp] theorem State.setHold_stopReq (h : Option Hold) : (s.setHold h).stopReq = s.stopReq := rfl
@[simp] theorem State.setHold_hold (h : Option Hold) : (s.setHold h).hold = h := rfl
@[simp] theorem State.setHold_config (h : Option Hold) : (s.setHold h).config = s.config := rfl

/-! An update that writes what is there, or writes twice. -/

@[simp] theorem State.setPc_same : s.setPc s.pc = s := rfl
@[simp] theorem State.setPc_twice (x v : Word) : (s.setPc x).setPc v = s.setPc v := rfl
@[simp] theorem State.setCond_same : s.setCond s.cond = s := rfl
@[simp] theorem State.setCond_twice (x c : BitVec 3) : (s.setCond x).setCond c = s.setCond c := rfl
@[simp] theorem State.setRunning_same : s.setRunning s.running = s := rfl
@[simp] theorem State.setRunning_twice (x b : Bool) : (s.setRunning x).setRunning b = s.setRunning b := rfl
@[simp] theorem State.setRegs_same : s.setRegs s.regs = s := rfl
@[simp] theorem State.setRegs_twice (x r : Regs) : (s.setRegs x).setRegs r = s.setRegs r := rfl
@[simp] theorem State.setMem_same : s.setMem s.mem = s := rfl
@[simp] theorem State.setMem_twice (x m : Memory) : (s.setMem x).setMem m = s.setMem m := rfl
@[simp] theorem State.setInq_same : s.setInq s.inq = s := rfl
@[simp] theorem State.setInq_twice (x q : List Byte) : (s.setInq x).setInq q = s.setInq q := rfl
@[simp] theorem State.setTaken_same : s.setTaken s.taken = s := rfl
@[simp] theorem State.setTaken_twice (x k : List Byte) : (s.setTaken x).setTaken k = s.setTaken k := rfl
@[simp] theorem State.setOut_same : s.setOut s.out = s := rfl
@[simp] theorem State.setOut_twice (x o : List Byte) : (s.setOut x).setOut o = s.setOut o := rfl
@[simp] theorem State.setStopReq_same : s.setStopReq s.stopReq = s := rfl
@[simp] theorem State.setStopReq_twice (x b : Bool) : (s.setStopReq x).setStopReq b = s.setStopReq b := rfl
@[simp] theorem State.setHold_same : s.setHold s.hold = s := rfl
@[simp] theorem State.setHold_twice (x h : Option Hold) : (s.setHold x).setHold h = s.setHold h := rfl

/-! ## Derived updates -/

@[simp] theorem State.setReg_regs (i : Reg) (v : Word) : (s.setReg i v).regs = s.regs.set i v := rfl
@[simp] theorem State.setReg_pc (i : Reg) (v : Word) : (s.setReg i v).pc = s.pc := rfl
@[simp] theorem State.setReg_cond (i : Reg) (v : Word) : (s.setReg i v).cond = s.cond := rfl
@[simp] theorem State.setReg_running (i : Reg) (v : Word) : (s.setReg i v).running = s.running := rfl
@[simp] theorem State.setReg_mem (i : Reg) (v : Word) : (s.setReg i v).mem = s.mem := rfl
@[simp] theorem State.setReg_inq (i : Reg) (v : Word) : (s.setReg i v).inq = s.inq := rfl
@[simp] theorem State.setReg_taken (i : Reg) (v : Word) : (s.setReg i v).taken = s.taken := rfl
@[simp] theorem State.setReg_out (i : Reg) (v : Word) : (s.setReg i v).out = s.out := rfl
@[simp] theorem State.setReg_stopReq (i : Reg) (v : Word) : (s.setReg i v).stopReq = s.stopReq := rfl
@[simp] theorem State.setReg_hold (i : Reg) (v : Word) : (s.setReg i v).hold = s.hold := rfl
@[simp] theorem State.setReg_config (i : Reg) (v : Word) : (s.setReg i v).config = s.config := rfl

@[simp] theorem State.setCell_regs (a v : Word) : (s.setCell a v).regs = s.regs := rfl
@[simp] theorem State.setCell_pc (a v : Word) : (s.setCell a v).pc = s.pc := rfl
@[simp] theorem State.setCell_cond (a v : Word) : (s.setCell a v).cond = s.cond := rfl
@[simp] theorem State.setCell_running (a v : Word) : (s.setCell a v).running = s.running := rfl
@[simp] theorem State.setCell_mem (a v : Word) : (s.setCell a v).mem = s.mem.write a.toNat v := rfl
@[simp] theorem State.setCell_inq (a v : Word) : (s.setCell a v).inq = s.inq := rfl
@[simp] theorem State.setCell_taken (a v : Word) : (s.setCell a v).taken = s.taken := rfl
@[simp] theorem State.setCell_out (a v : Word) : (s.setCell a v).out = s.out := rfl
@[simp] theorem State.setCell_stopReq (a v : Word) : (s.setCell a v).stopReq = s.stopReq := rfl
@[simp] theorem State.setCell_hold (a v : Word) : (s.setCell a v).hold = s.hold := rfl
@[simp] theorem State.setCell_config (a v : Word) : (s.setCell a v).config = s.config := rfl

@[simp] theorem State.memWrite_regs (a v : Word) : (s.memWrite a v).regs = s.regs := rfl
@[simp] theorem State.memWrite_pc (a v : Word) : (s.memWrite a v).pc = s.pc := rfl
@[simp] theorem State.memWrite_cond (a v : Word) : (s.memWrite a v).cond = s.cond := rfl
@[simp] theorem State.memWrite_running (a v : Word) : (s.memWrite a v).running = s.running := rfl
@[simp] theorem State.memWrite_mem (a v : Word) : (s.memWrite a v).mem = s.mem.write a.toNat v := rfl
@[simp] theorem State.memWrite_inq (a v : Word) : (s.memWrite a v).inq = s.inq := rfl
@[simp] theorem State.memWrite_taken (a v : Word) : (s.memWrite a v).taken = s.taken := rfl
@[simp] theorem State.memWrite_out (a v : Word) : (s.memWrite a v).out = s.out := rfl
@[simp] theorem State.memWrite_stopReq (a v : Word) : (s.memWrite a v).stopReq = s.stopReq := rfl
@[simp] theorem State.memWrite_hold (a v : Word) : (s.memWrite a v).hold = s.hold := rfl
@[simp] theorem State.memWrite_config (a v : Word) : (s.memWrite a v).config = s.config := rfl

@[simp] theorem State.takeUnits_regs (k q : List Byte) : (s.takeUnits k q).regs = s.regs := rfl
@[simp] theorem State.takeUnits_pc (k q : List Byte) : (s.takeUnits k q).pc = s.pc := rfl
@[simp] theorem State.takeUnits_cond (k q : List Byte) : (s.takeUnits k q).cond = s.cond := rfl
@[simp] theorem State.takeUnits_running (k q : List Byte) : (s.takeUnits k q).running = s.running := rfl
@[simp] theorem State.takeUnits_mem (k q : List Byte) : (s.takeUnits k q).mem = s.mem := rfl
@[simp] theorem State.takeUnits_inq (k q : List Byte) : (s.takeUnits k q).inq = q := rfl
@[simp] theorem State.takeUnits_taken (k q : List Byte) : (s.takeUnits k q).taken = s.taken ++ k := rfl
@[simp] theorem State.takeUnits_out (k q : List Byte) : (s.takeUnits k q).out = s.out := rfl
@[simp] theorem State.takeUnits_stopReq (k q : List Byte) : (s.takeUnits k q).stopReq = s.stopReq := rfl
@[simp] theorem State.takeUnits_hold (k q : List Byte) : (s.takeUnits k q).hold = s.hold := rfl
@[simp] theorem State.takeUnits_config (k q : List Byte) : (s.takeUnits k q).config = s.config := rfl
/-- Nothing taken. -/
@[simp] theorem State.takeUnits_nil : s.takeUnits [] s.inq = s := by
  unfold State.takeUnits
  rw [List.append_nil]
  rfl
/-- Units taken in two goes. -/
theorem State.takeUnits_takeUnits (k l p q : List Byte) :
    (s.takeUnits k p).takeUnits l q = s.takeUnits (k ++ l) q := by
  unfold State.takeUnits
  rw [← List.append_assoc]
  rfl

@[simp] theorem State.conPut_regs (b : Byte) : (s.conPut b).regs = s.regs := rfl
@[simp] theorem State.conPut_pc (b : Byte) : (s.conPut b).pc = s.pc := rfl
@[simp] theorem State.conPut_cond (b : Byte) : (s.conPut b).cond = s.cond := rfl
@[simp] theorem State.conPut_running (b : Byte) : (s.conPut b).running = s.running := rfl
@[simp] theorem State.conPut_mem (b : Byte) : (s.conPut b).mem = s.mem := rfl
@[simp] theorem State.conPut_inq (b : Byte) : (s.conPut b).inq = s.inq := rfl
@[simp] theorem State.conPut_taken (b : Byte) : (s.conPut b).taken = s.taken := rfl
@[simp] theorem State.conPut_out (b : Byte) : (s.conPut b).out = s.out ++ [b] := rfl
@[simp] theorem State.conPut_stopReq (b : Byte) : (s.conPut b).stopReq = s.stopReq := rfl
@[simp] theorem State.conPut_hold (b : Byte) : (s.conPut b).hold = s.hold := rfl
@[simp] theorem State.conPut_config (b : Byte) : (s.conPut b).config = s.config := rfl

@[simp] theorem State.setcc_regs (i : Reg) : (s.setcc i).regs = s.regs := rfl
@[simp] theorem State.setcc_pc (i : Reg) : (s.setcc i).pc = s.pc := rfl
@[simp] theorem State.setcc_cond (i : Reg) : (s.setcc i).cond = condOf (s.reg i) := rfl
@[simp] theorem State.setcc_running (i : Reg) : (s.setcc i).running = s.running := rfl
@[simp] theorem State.setcc_mem (i : Reg) : (s.setcc i).mem = s.mem := rfl
@[simp] theorem State.setcc_inq (i : Reg) : (s.setcc i).inq = s.inq := rfl
@[simp] theorem State.setcc_taken (i : Reg) : (s.setcc i).taken = s.taken := rfl
@[simp] theorem State.setcc_out (i : Reg) : (s.setcc i).out = s.out := rfl
@[simp] theorem State.setcc_stopReq (i : Reg) : (s.setcc i).stopReq = s.stopReq := rfl
@[simp] theorem State.setcc_hold (i : Reg) : (s.setcc i).hold = s.hold := rfl
@[simp] theorem State.setcc_config (i : Reg) : (s.setcc i).config = s.config := rfl

@[simp] theorem State.holdAt_regs (h : Hold) : (s.holdAt h).regs = s.regs := rfl
@[simp] theorem State.holdAt_pc (h : Hold) : (s.holdAt h).pc = s.pc := rfl
@[simp] theorem State.holdAt_cond (h : Hold) : (s.holdAt h).cond = s.cond := rfl
@[simp] theorem State.holdAt_running (h : Hold) : (s.holdAt h).running = s.running := rfl
@[simp] theorem State.holdAt_mem (h : Hold) : (s.holdAt h).mem = s.mem := rfl
@[simp] theorem State.holdAt_inq (h : Hold) : (s.holdAt h).inq = s.inq := rfl
@[simp] theorem State.holdAt_taken (h : Hold) : (s.holdAt h).taken = s.taken := rfl
@[simp] theorem State.holdAt_out (h : Hold) : (s.holdAt h).out = s.out := rfl
@[simp] theorem State.holdAt_stopReq (h : Hold) : (s.holdAt h).stopReq = s.stopReq := rfl
@[simp] theorem State.holdAt_hold (h : Hold) : (s.holdAt h).hold = some h := rfl
@[simp] theorem State.holdAt_config (h : Hold) : (s.holdAt h).config = s.config := rfl

@[simp] theorem State.trapEntry_regs : s.trapEntry.regs = s.regs.set .r7 s.pc := rfl
@[simp] theorem State.trapEntry_pc : s.trapEntry.pc = s.pc := rfl
@[simp] theorem State.trapEntry_cond : s.trapEntry.cond = s.cond := rfl
@[simp] theorem State.trapEntry_running : s.trapEntry.running = s.running := rfl
@[simp] theorem State.trapEntry_mem : s.trapEntry.mem = s.mem := rfl
@[simp] theorem State.trapEntry_inq : s.trapEntry.inq = s.inq := rfl
@[simp] theorem State.trapEntry_taken : s.trapEntry.taken = s.taken := rfl
@[simp] theorem State.trapEntry_out : s.trapEntry.out = s.out := rfl
@[simp] theorem State.trapEntry_stopReq : s.trapEntry.stopReq = s.stopReq := rfl
@[simp] theorem State.trapEntry_hold : s.trapEntry.hold = s.hold := rfl
@[simp] theorem State.trapEntry_config : s.trapEntry.config = s.config := rfl
@[simp] theorem State.trapReturn_eq : s.trapReturn = s := rfl

/-! ## Registers -/

theorem Regs.get_set (r : Regs) (i j : Reg) (v : Word) : (r.set i v).get j = if j = i then v else r.get j := by
  cases i <;> cases j <;> rfl

@[simp] theorem Regs.get_set_same (r : Regs) (i : Reg) (v : Word) : (r.set i v).get i = v := by
  simp [Regs.get_set]

theorem Regs.get_set_other (r : Regs) (i j : Reg) (v : Word) (h : j ≠ i) : (r.set i v).get j = r.get j := by
  simp [Regs.get_set, h]

theorem Regs.set_twice (r : Regs) (i : Reg) (u v : Word) : (r.set i u).set i v = r.set i v := by
  cases i <;> rfl

/-- A register file is what its registers read as. -/
theorem Regs.ext_get {r t : Regs} (h : ∀ i, r.get i = t.get i) : r = t := by
  obtain ⟨_, _, _, _, _, _, _, _⟩ := r
  obtain ⟨_, _, _, _, _, _, _, _⟩ := t
  have h0 := h .r0
  have h1 := h .r1
  have h2 := h .r2
  have h3 := h .r3
  have h4 := h .r4
  have h5 := h .r5
  have h6 := h .r6
  have h7 := h .r7
  simp only [Regs.get] at h0 h1 h2 h3 h4 h5 h6 h7
  simp only [h0, h1, h2, h3, h4, h5, h6, h7]

theorem State.reg_eq (i : Reg) : s.reg i = s.regs.get i := rfl

/-- A register reads the same in two states with the same register file. -/
theorem State.reg_congr {s t : State} (h : s.regs = t.regs) (i : Reg) : s.reg i = t.reg i := by
  simp only [State.reg, h]

theorem State.reg_setReg (i j : Reg) (v : Word) : (s.setReg i v).reg j = if j = i then v else s.reg j :=
  Regs.get_set _ _ _ _

@[simp] theorem State.reg_setReg_same (i : Reg) (v : Word) : (s.setReg i v).reg i = v := by
  simp [State.reg_setReg]

theorem State.reg_setReg_other (i j : Reg) (v : Word) (h : j ≠ i) : (s.setReg i v).reg j = s.reg j := by
  simp [State.reg_setReg, h]

@[simp] theorem State.reg_setPc (i : Reg) (v : Word) : (s.setPc v).reg i = s.reg i := rfl
@[simp] theorem State.reg_setCond (i : Reg) (c : BitVec 3) : (s.setCond c).reg i = s.reg i := rfl
@[simp] theorem State.reg_setRunning (i : Reg) (b : Bool) : (s.setRunning b).reg i = s.reg i := rfl
@[simp] theorem State.reg_setMem (i : Reg) (m : Memory) : (s.setMem m).reg i = s.reg i := rfl
@[simp] theorem State.reg_setInq (i : Reg) (q : List Byte) : (s.setInq q).reg i = s.reg i := rfl
@[simp] theorem State.reg_setTaken (i : Reg) (k : List Byte) : (s.setTaken k).reg i = s.reg i := rfl
@[simp] theorem State.reg_takeUnits (i : Reg) (k q : List Byte) : (s.takeUnits k q).reg i = s.reg i := rfl
@[simp] theorem State.reg_setOut (i : Reg) (o : List Byte) : (s.setOut o).reg i = s.reg i := rfl
@[simp] theorem State.reg_setStopReq (i : Reg) (b : Bool) : (s.setStopReq b).reg i = s.reg i := rfl
@[simp] theorem State.reg_setHold (i : Reg) (h : Option Hold) : (s.setHold h).reg i = s.reg i := rfl
@[simp] theorem State.reg_memWrite (i : Reg) (a v : Word) : (s.memWrite a v).reg i = s.reg i := rfl
@[simp] theorem State.reg_setCell (i : Reg) (a v : Word) : (s.setCell a v).reg i = s.reg i := rfl
@[simp] theorem State.reg_conPut (i : Reg) (b : Byte) : (s.conPut b).reg i = s.reg i := rfl
@[simp] theorem State.reg_setcc (i j : Reg) : (s.setcc i).reg j = s.reg j := rfl
@[simp] theorem State.reg_holdAt (i : Reg) (h : Hold) : (s.holdAt h).reg i = s.reg i := rfl
@[simp] theorem State.reg_trapEntry_link : s.trapEntry.reg linkReg = s.pc := by
  simp [State.trapEntry]

/-! ## Cells -/

@[simp] theorem State.cell_setPc (a : Word) (v : Word) : (s.setPc v).cell a = s.cell a := rfl
@[simp] theorem State.cell_setCond (a : Word) (c : BitVec 3) : (s.setCond c).cell a = s.cell a := rfl
@[simp] theorem State.cell_setRunning (a : Word) (b : Bool) : (s.setRunning b).cell a = s.cell a := rfl
@[simp] theorem State.cell_setRegs (a : Word) (r : Regs) : (s.setRegs r).cell a = s.cell a := rfl
@[simp] theorem State.cell_setInq (a : Word) (q : List Byte) : (s.setInq q).cell a = s.cell a := rfl
@[simp] theorem State.cell_setTaken (a : Word) (k : List Byte) : (s.setTaken k).cell a = s.cell a := rfl
@[simp] theorem State.cell_takeUnits (a : Word) (k q : List Byte) : (s.takeUnits k q).cell a = s.cell a := rfl
@[simp] theorem State.cell_setOut (a : Word) (o : List Byte) : (s.setOut o).cell a = s.cell a := rfl
@[simp] theorem State.cell_setStopReq (a : Word) (b : Bool) : (s.setStopReq b).cell a = s.cell a := rfl
@[simp] theorem State.cell_setHold (a : Word) (h : Option Hold) : (s.setHold h).cell a = s.cell a := rfl
@[simp] theorem State.cell_setReg (a : Word) (i : Reg) (v : Word) : (s.setReg i v).cell a = s.cell a := rfl
@[simp] theorem State.cell_conPut (a : Word) (b : Byte) : (s.conPut b).cell a = s.cell a := rfl
@[simp] theorem State.cell_setcc (a : Word) (i : Reg) : (s.setcc i).cell a = s.cell a := rfl
@[simp] theorem State.cell_holdAt (a : Word) (h : Hold) : (s.holdAt h).cell a = s.cell a := rfl
@[simp] theorem State.cell_trapEntry (a : Word) : s.trapEntry.cell a = s.cell a := rfl

/-- A cell reads the same in two states with the same memory. -/
theorem State.cell_congr {s t : State} (h : s.mem = t.mem) (a : Word) : s.cell a = t.cell a := by
  simp only [State.cell, h]

/-! ## The destination write of the flag-setting instructions -/

section writeDest
variable (d : Reg) (v : Word)

@[simp] theorem State.writeDest_regs : (s.writeDest d v).regs = s.regs.set d v := rfl
@[simp] theorem State.writeDest_pc : (s.writeDest d v).pc = s.pc := rfl
@[simp] theorem State.writeDest_cond : (s.writeDest d v).cond = condOf v := by
  simp [State.writeDest]
@[simp] theorem State.writeDest_running : (s.writeDest d v).running = s.running := rfl
@[simp] theorem State.writeDest_mem : (s.writeDest d v).mem = s.mem := rfl
@[simp] theorem State.writeDest_inq : (s.writeDest d v).inq = s.inq := rfl
@[simp] theorem State.writeDest_taken : (s.writeDest d v).taken = s.taken := rfl
@[simp] theorem State.writeDest_out : (s.writeDest d v).out = s.out := rfl
@[simp] theorem State.writeDest_stopReq : (s.writeDest d v).stopReq = s.stopReq := rfl
@[simp] theorem State.writeDest_hold : (s.writeDest d v).hold = s.hold := rfl
@[simp] theorem State.writeDest_config : (s.writeDest d v).config = s.config := rfl
@[simp] theorem State.writeDest_reg_same : (s.writeDest d v).reg d = v := by simp [State.writeDest]
theorem State.writeDest_reg_other (r : Reg) (h : r ≠ d) : (s.writeDest d v).reg r = s.reg r := by
  simp [State.writeDest, State.reg_setReg_other, h]
@[simp] theorem State.writeDest_cell (a : Word) : (s.writeDest d v).cell a = s.cell a := rfl
end writeDest

/-! ## A console string -/

theorem State.conPuts_eq (bs : List Byte) : s.conPuts bs = s.setOut (s.out ++ bs) := by
  induction bs generalizing s with
  | nil => simp [State.conPuts]
  | cons b rest ih => simp [State.conPuts, ih, State.conPut]

end Sys2Proof.Machine
end

