-- ==== Sys2Proof/Laws/Memory.lean ====
section
/-! SUPPORT. The laws of raw storage: read after write, the canonical form is kept by every memory operation, and
memories in canonical form that read alike are equal. Then the case lemmas of the Memory Unit's read. -/

namespace Sys2Proof.Machine

/-! ## The canonical form -/

theorem Memory.wfFrom_cons {lo k : Nat} {v : Word} {rest : Memory} :
    Memory.wfFrom lo ((k, v) :: rest) = true ↔
      lo ≤ k ∧ k < 65536 ∧ v ≠ Memory.unlisted ∧ Memory.wfFrom (k + 1) rest = true := by
  simp [Memory.wfFrom, and_assoc]

theorem Memory.wfFrom_weaken {lo lo' : Nat} (h : lo' ≤ lo) :
    ∀ {m : Memory}, Memory.wfFrom lo m = true → Memory.wfFrom lo' m = true
  | [], _ => rfl
  | (k, v) :: rest, hw => by
    rw [Memory.wfFrom_cons] at hw ⊢
    exact ⟨le_trans h hw.1, hw.2⟩

/-- Below the first entry's bound nothing is listed. -/
theorem Memory.read_below {lo a : Nat} (h : a < lo) :
    ∀ {m : Memory}, Memory.wfFrom lo m = true → m.read a = Memory.unlisted
  | [], _ => rfl
  | (k, v) :: rest, hw => by
    rw [Memory.wfFrom_cons] at hw
    have hk : k ≠ a := by omega
    simp only [Memory.read, hk, if_false]
    exact Memory.read_below (by omega) hw.2.2.2

/-! ## Read after write -/

theorem Memory.read_put_same {lo a : Nat} {v : Word} {rest : Memory} (ha : a < lo)
    (h : Memory.wfFrom lo rest = true) : (Memory.put a v rest).read a = v := by
  unfold Memory.put
  split
  · next hv => rw [Memory.read_below ha h, hv]
  · simp [Memory.read]

theorem Memory.read_put_other {a b : Nat} {v : Word} {rest : Memory} (h : b ≠ a) :
    (Memory.put a v rest).read b = Memory.read rest b := by
  unfold Memory.put
  split
  · rfl
  · simp [Memory.read, Ne.symm h]

theorem Memory.read_write_same_from {a : Nat} {v : Word} :
    ∀ {lo : Nat} {m : Memory}, Memory.wfFrom lo m = true → (m.write a v).read a = v
  | _, [], _ => Memory.read_put_same (lo := a + 1) (by omega) rfl
  | _, (k, w) :: rest, hw => by
    have hc := Memory.wfFrom_cons.1 hw
    unfold Memory.write
    split
    · next hlt =>
      exact Memory.read_put_same (lo := k) hlt (Memory.wfFrom_cons.2 ⟨le_refl _, hc.2⟩)
    · split
      · next heq => subst heq; exact Memory.read_put_same (by omega) hc.2.2.2
      · next hne =>
        simp only [Memory.read, Ne.symm hne, if_false]
        exact Memory.read_write_same_from hc.2.2.2

/-- A read after a write to the same cell gives the value written. -/
theorem Memory.read_write_same {m : Memory} (h : m.wf = true) (a : Nat) (v : Word) : (m.write a v).read a = v :=
  Memory.read_write_same_from h

/-- A write leaves every other cell alone. -/
theorem Memory.read_write_other {a b : Nat} {v : Word} (h : b ≠ a) :
    ∀ {m : Memory}, (m.write a v).read b = m.read b
  | [] => Memory.read_put_other h
  | (k, w) :: rest => by
    unfold Memory.write
    split
    · exact Memory.read_put_other h
    · split
      · next heq => subst heq; simp [Memory.read_put_other h, Memory.read, Ne.symm h]
      · simp only [Memory.read]
        split
        · rfl
        · exact Memory.read_write_other h

/-! ## The form is kept -/

theorem Memory.put_wfFrom {lo a : Nat} {v : Word} {rest : Memory} (hlo : lo ≤ a) (ha : a < 65536)
    (h : Memory.wfFrom (a + 1) rest = true) : Memory.wfFrom lo (Memory.put a v rest) = true := by
  unfold Memory.put
  split
  · exact Memory.wfFrom_weaken (by omega) h
  · next hv => exact Memory.wfFrom_cons.2 ⟨hlo, ha, hv, h⟩

theorem Memory.write_wfFrom {a : Nat} {v : Word} (ha : a < 65536) :
    ∀ {lo : Nat} {m : Memory}, lo ≤ a → Memory.wfFrom lo m = true → Memory.wfFrom lo (m.write a v) = true
  | _, [], hlo, _ => Memory.put_wfFrom hlo ha rfl
  | _, (k, w) :: rest, hlo, hw => by
    have hc := Memory.wfFrom_cons.1 hw
    unfold Memory.write
    split
    · next hlt =>
      exact Memory.put_wfFrom hlo ha (Memory.wfFrom_cons.2 ⟨by omega, hc.2⟩)
    · split
      · next heq => subst heq; exact Memory.put_wfFrom hlo ha hc.2.2.2
      · exact Memory.wfFrom_cons.2
          ⟨hc.1, hc.2.1, hc.2.2.1, Memory.write_wfFrom ha (by omega) hc.2.2.2⟩

/-- A write keeps the canonical form. -/
theorem Memory.write_wf {m : Memory} (h : m.wf = true) (a v : Word) : (m.write a.toNat v).wf = true :=
  Memory.write_wfFrom a.isLt (Nat.zero_le _) h

@[simp] theorem Memory.wf_nil : Memory.wf [] = true := rfl

/-! ## Equal memories are equal lists -/

theorem Memory.ext_from : ∀ {lo : Nat} {m n : Memory}, Memory.wfFrom lo m = true → Memory.wfFrom lo n = true →
    (∀ a, m.read a = n.read a) → m = n
  | _, [], [], _, _, _ => rfl
  | _, [], (k, v) :: rest, _, hn, h => by
    have hc := Memory.wfFrom_cons.1 hn
    have := h k
    simp only [Memory.read, if_true] at this
    exact absurd this.symm hc.2.2.1
  | _, (k, v) :: rest, [], hm, _, h => by
    have hc := Memory.wfFrom_cons.1 hm
    have := h k
    simp only [Memory.read, if_true] at this
    exact absurd this hc.2.2.1
  | _, (k, v) :: rest, (j, w) :: tail, hm, hn, h => by
    have hc := Memory.wfFrom_cons.1 hm
    have hd := Memory.wfFrom_cons.1 hn
    have hkj : k = j := by
      rcases lt_trichotomy k j with hlt | heq | hgt
      · have := h k
        simp only [Memory.read, if_true, show j ≠ k by omega, if_false] at this
        rw [Memory.read_below (lo := j + 1) (by omega) hd.2.2.2] at this
        exact absurd this hc.2.2.1
      · exact heq
      · have := h j
        simp only [Memory.read, if_true, show k ≠ j by omega, if_false] at this
        rw [Memory.read_below (lo := k + 1) (by omega) hc.2.2.2] at this
        exact absurd this.symm hd.2.2.1
    subst hkj
    have hvw : v = w := by simpa [Memory.read] using h k
    subst hvw
    have hrest : rest = tail := Memory.ext_from hc.2.2.2 hd.2.2.2 fun a => by
      by_cases ha : a = k
      · subst ha
        rw [Memory.read_below (lo := a + 1) (by omega) hc.2.2.2, Memory.read_below (lo := a + 1) (by omega) hd.2.2.2]
      · simpa [Memory.read, Ne.symm ha] using h a
    rw [hrest]

/-- Two memories in canonical form that read alike are the same list (log 1). -/
theorem Memory.ext_read {m n : Memory} (hm : m.wf = true) (hn : n.wf = true) (h : ∀ a, m.read a = n.read a) : m = n :=
  Memory.ext_from hm hn h

/-! ## Cells of the state -/

theorem State.cell_memWrite_same {s : State} (h : s.mem.wf = true) (a v : Word) : (s.memWrite a v).cell a = v :=
  Memory.read_write_same h _ _

theorem State.cell_memWrite_other (s : State) {a b : Word} (v : Word) (h : b ≠ a) :
    (s.memWrite a v).cell b = s.cell b :=
  Memory.read_write_other fun e => h (BitVec.eq_of_toNat_eq e)

theorem State.cell_setCell_same {s : State} (h : s.mem.wf = true) (a v : Word) : (s.setCell a v).cell a = v :=
  Memory.read_write_same h _ _

theorem State.memWrite_wf {s : State} (h : s.mem.wf = true) (a v : Word) : (s.memWrite a v).mem.wf = true :=
  Memory.write_wf h a v

/-! ## Input -/

theorem State.inTake_nil {s : State} (h : s.inq = []) : s.inTake = none := by
  simp [State.inTake, h]

theorem State.inTake_cons {s : State} {u : Byte} {q : List Byte} (h : s.inq = u :: q) :
    s.inTake = some (u, s.takeUnits [u] q) := by
  simp [State.inTake, h]

/-- What `InTake` can do: nothing pending, or the oldest unit and the rest. -/
theorem State.inTake_cases (s : State) :
    (s.inq = [] ∧ s.inTake = none) ∨ ∃ u q, s.inq = u :: q ∧ s.inTake = some (u, s.takeUnits [u] q) := by
  cases h : s.inq with
  | nil => exact .inl ⟨rfl, State.inTake_nil h⟩
  | cons u q => exact .inr ⟨u, q, rfl, State.inTake_cons h⟩

/-! ## The Memory Unit's read -/

theorem State.memRead_kbsr {s : State} {a : Word} (h : a = s.config.kbsrAddress) :
    s.memRead a = some (s.kbsrValue, s) := by
  simp [State.memRead, h]

theorem State.memRead_plain {s : State} {a : Word} (h : a ≠ s.config.kbsrAddress) (h' : a ≠ s.config.kbdrAddress) :
    s.memRead a = some (s.cell a, s) := by
  simp [State.memRead, h, h']

theorem State.memRead_kbdr_empty {s : State} {a : Word} (h : a ≠ s.config.kbsrAddress)
    (h' : a = s.config.kbdrAddress) (hq : s.inq = []) : s.memRead a = none := by
  subst h'
  simp [State.memRead, h, State.inTake_nil hq]

theorem State.memRead_kbdr_unit {s : State} {a : Word} {u : Byte} {q : List Byte} (h : a ≠ s.config.kbsrAddress)
    (h' : a = s.config.kbdrAddress) (hq : s.inq = u :: q) : s.memRead a = some (zext16 u, s.takeUnits [u] q) := by
  subst h'
  simp [State.memRead, h, State.inTake_cons hq]

/-- Everything a read of the Memory Unit can do: KBSR, KBDR with a unit, KBDR with none, or plain storage. -/
theorem State.memRead_cases (s : State) (a : Word) :
    (a = s.config.kbsrAddress ∧ s.memRead a = some (s.kbsrValue, s)) ∨
    (a ≠ s.config.kbsrAddress ∧ a = s.config.kbdrAddress ∧ s.inq = [] ∧ s.memRead a = none) ∨
    (∃ u q, a ≠ s.config.kbsrAddress ∧ a = s.config.kbdrAddress ∧ s.inq = u :: q ∧
      s.memRead a = some (zext16 u, s.takeUnits [u] q)) ∨
    (a ≠ s.config.kbsrAddress ∧ a ≠ s.config.kbdrAddress ∧ s.memRead a = some (s.cell a, s)) := by
  by_cases h : a = s.config.kbsrAddress
  · exact .inl ⟨h, State.memRead_kbsr h⟩
  · by_cases h' : a = s.config.kbdrAddress
    · cases hq : s.inq with
      | nil => exact .inr (.inl ⟨h, h', rfl, State.memRead_kbdr_empty h h' hq⟩)
      | cons u q => exact .inr (.inr (.inl ⟨u, q, h, h', rfl, State.memRead_kbdr_unit h h' hq⟩))
    · exact .inr (.inr (.inr ⟨h, h', State.memRead_plain h h'⟩))

/-- A completed read changes the input queue and the record of it alone: it takes at most the oldest unit. -/
theorem State.memRead_some {s t : State} {a v : Word} (h : s.memRead a = some (v, t)) :
    ∃ k q, s.inq = k ++ q ∧ t = s.takeUnits k q := by
  rcases s.memRead_cases a with ⟨_, e⟩ | ⟨_, _, _, e⟩ | ⟨u, q, _, _, hq, e⟩ | ⟨_, _, e⟩
  · rw [e] at h; cases h; exact ⟨[], s.inq, rfl, s.takeUnits_nil.symm⟩
  · rw [e] at h; cases h
  · rw [e] at h; cases h; exact ⟨[u], q, hq, rfl⟩
  · rw [e] at h; cases h; exact ⟨[], s.inq, rfl, s.takeUnits_nil.symm⟩

/-- A read that holds is one of KBDR with nothing pending. -/
theorem State.memRead_none {s : State} {a : Word} (h : s.memRead a = none) :
    a = s.config.kbdrAddress ∧ s.inq = [] := by
  rcases s.memRead_cases a with ⟨_, e⟩ | ⟨_, ha, hq, _⟩ | ⟨u, q, _, _, _, e⟩ | ⟨_, _, e⟩
  · rw [e] at h; cases h
  · exact ⟨ha, hq⟩
  · rw [e] at h; cases h
  · rw [e] at h; cases h

end Sys2Proof.Machine
end

