-- ==== Sys2Proof/Laws/Exec.lean ====
section
/-! SUPPORT. One lemma for each shared part of the meanings that says everything it can do, and how reads commute with
updates they do not look at. Later proofs cite these and unfold nothing. -/

namespace Sys2Proof.Machine

/-! ## The words of the claims -/

/-- The flag of a value is the one that says its sign (10_state.md R25, R28). -/
theorem flagOf_condOf (v : Word) : FlagOf v (condOf v) := by
  have hm : v.getLsbD 15 = decide (v.toInt < 0) := by
    rw [← BitVec.msb_eq_toInt, BitVec.msb_eq_getLsbD_last]
  have hz : v = 0 → v.toInt = 0 := fun h => by rw [h]; rfl
  unfold FlagOf condOf
  rw [hm]
  refine ⟨fun h => ?_, fun h => ?_, fun h => ?_⟩
  · rw [if_pos (BitVec.eq_of_toInt_eq h)]; rfl
  · rw [if_neg (fun e => by have := hz e; omega)]; simp [h, flN]
  · rw [if_neg (fun e => by have := hz e; omega)]; simp [show ¬ v.toInt < 0 by omega, flP]

/-- Everything the destination write of a flag-setting instruction does. -/
theorem State.writeDest_wrote (s : State) (d : Reg) (v : Word) : WroteDest d v s (s.writeDest d v) :=
  ⟨by simp, by simpa using flagOf_condOf v, fun r h => s.writeDest_reg_other d v r h, rfl, fun _ => rfl,
    ⟨rfl, rfl, rfl, rfl, rfl, rfl, rfl⟩⟩

/-- Everything a write to memory does. -/
theorem State.memWrite_stored {s : State} (h : s.mem.wf = true) (a v : Word) : Stored a v s (s.memWrite a v) :=
  ⟨State.cell_memWrite_same h a v, fun _ hb => s.cell_memWrite_other v hb, fun _ => rfl, rfl, rfl,
    ⟨rfl, rfl, rfl, rfl, rfl, rfl, rfl⟩⟩

/-- Everything trap entry does. -/
theorem State.trapEntry_trapped (s : State) : Trapped s s.trapEntry :=
  ⟨by simp [State.reg], fun r h _ => by simp [State.reg, Regs.get_set, h], rfl, rfl, fun _ => rfl, rfl, rfl⟩

/-! ## Reads and updates they do not look at -/

theorem State.memRead_setCond (s : State) (a : Word) (c : BitVec 3) :
    (s.setCond c).memRead a = (s.memRead a).map fun r => (r.1, r.2.setCond c) := by
  rcases s.memRead_cases a with ⟨h, e⟩ | ⟨h, h', hq, e⟩ | ⟨u, q, h, h', hq, e⟩ | ⟨h, h', e⟩ <;> rw [e]
  · exact State.memRead_kbsr (s := s.setCond c) h
  · exact State.memRead_kbdr_empty (s := s.setCond c) h h' hq
  · exact State.memRead_kbdr_unit (s := s.setCond c) h h' hq
  · exact State.memRead_plain (s := s.setCond c) h h'

theorem State.memRead_setStopReq (s : State) (a : Word) (b : Bool) :
    (s.setStopReq b).memRead a = (s.memRead a).map fun r => (r.1, r.2.setStopReq b) := by
  rcases s.memRead_cases a with ⟨h, e⟩ | ⟨h, h', hq, e⟩ | ⟨u, q, h, h', hq, e⟩ | ⟨h, h', e⟩ <;> rw [e]
  · exact State.memRead_kbsr (s := s.setStopReq b) h
  · exact State.memRead_kbdr_empty (s := s.setStopReq b) h h' hq
  · exact State.memRead_kbdr_unit (s := s.setStopReq b) h h' hq
  · exact State.memRead_plain (s := s.setStopReq b) h h'

theorem State.memRead_setHold (s : State) (a : Word) (h : Option Hold) :
    (s.setHold h).memRead a = (s.memRead a).map fun r => (r.1, r.2.setHold h) := by
  rcases s.memRead_cases a with ⟨h1, e⟩ | ⟨h1, h2, hq, e⟩ | ⟨u, q, h1, h2, hq, e⟩ | ⟨h1, h2, e⟩ <;> rw [e]
  · exact State.memRead_kbsr (s := s.setHold h) h1
  · exact State.memRead_kbdr_empty (s := s.setHold h) h1 h2 hq
  · exact State.memRead_kbdr_unit (s := s.setHold h) h1 h2 hq
  · exact State.memRead_plain (s := s.setHold h) h1 h2

/-! ## Loads and the store through a pointer -/

/-- What a data read and its load can do: hold, or write the destination. -/
theorem loadFrom_cases (dr : Reg) (a : Word) (s : State) :
    (s.memRead a = none ∧ loadFrom dr a s = .next (s.holdAt (.load dr))) ∨
    ∃ v t, s.memRead a = some (v, t) ∧ loadFrom dr a s = .next (t.writeDest dr v) := by
  cases h : s.memRead a with
  | none => exact .inl ⟨rfl, by simp [loadFrom, h]⟩
  | some r => exact .inr ⟨r.1, r.2, rfl, by simp [loadFrom, h]⟩

/-- What LDI's pointer read can do: hold, or go on with the data read. -/
theorem ldiFrom_cases (dr : Reg) (a : Word) (s : State) :
    (s.memRead a = none ∧ ldiFrom dr a s = .next (s.holdAt (.ldiPointer dr))) ∨
    ∃ p t, s.memRead a = some (p, t) ∧ ldiFrom dr a s = loadFrom dr p t := by
  cases h : s.memRead a with
  | none => exact .inl ⟨rfl, by simp [ldiFrom, h]⟩
  | some r => exact .inr ⟨r.1, r.2, rfl, by simp [ldiFrom, h]⟩

/-- What STI's pointer read can do: hold, or store. -/
theorem stiFrom_cases (sr : Reg) (a : Word) (s : State) :
    (s.memRead a = none ∧ stiFrom sr a s = .next (s.holdAt (.stiPointer sr))) ∨
    ∃ p t, s.memRead a = some (p, t) ∧ stiFrom sr a s = .next (t.memWrite p (t.reg sr)) := by
  cases h : s.memRead a with
  | none => exact .inl ⟨rfl, by simp [stiFrom, h]⟩
  | some r => exact .inr ⟨r.1, r.2, rfl, by simp [stiFrom, h]⟩

/-! ## PUTS -/

/-- The loop of PUTS changes the input, the console and the hold only: it takes units from the front of the queue,
appends to the console, and either leaves the hold as it was or holds at one of its reads. -/
theorem putsLoop_frame : ∀ (fuel : Nat) (a : Word) (s : State),
    ∃ k q o h, putsLoop fuel a s = ((s.takeUnits k q).setOut o).setHold h ∧ s.inq = k ++ q ∧
      (∃ emitted, o = s.out ++ emitted) ∧ (h = s.hold ∨ ∃ b, h = some (.puts b))
  | 0, a, s => ⟨[], s.inq, s.out, some (.puts a), by simp [putsLoop, State.holdAt], rfl, ⟨[], by simp⟩, .inr ⟨a, rfl⟩⟩
  | fuel + 1, a, s => by
    cases h : s.memRead a with
    | none =>
      exact ⟨[], s.inq, s.out, some (.puts a), by simp [putsLoop, h, State.holdAt], rfl, ⟨[], by simp⟩,
        .inr ⟨a, rfl⟩⟩
    | some r =>
      obtain ⟨w, t⟩ := r
      obtain ⟨k, p, hq, rfl⟩ := State.memRead_some h
      by_cases hw : w = 0
      · exact ⟨k, p, s.out, s.hold, by simp [putsLoop, h, hw]; rfl, hq, ⟨[], by simp⟩, .inl rfl⟩
      · obtain ⟨l, q, o, hd, e, hm, ⟨em, ho⟩, hh⟩ :=
          putsLoop_frame fuel (a + 1) ((s.takeUnits k p).conPut (lowByte w))
        refine ⟨k ++ l, q, o, hd, ?_, ?_, ⟨lowByte w :: em, ?_⟩, hh⟩
        · simp only [putsLoop, h, hw, if_false, e]
          rw [← State.takeUnits_takeUnits s k l p q]
          rfl
        · have : p = l ++ q := hm
          rw [hq, this, List.append_assoc]
        · rw [ho]; simp

/-- One pass of the loop over a plain, non-zero cell. -/
theorem putsLoop_plain {fuel : Nat} {a : Word} {s : State} (h : s.intercepted a = false) (hw : s.cell a ≠ 0) :
    putsLoop (fuel + 1) a s = putsLoop fuel (a + 1) (s.conPut (lowByte (s.cell a))) := by
  simp only [State.intercepted, Bool.or_eq_false_iff, beq_eq_false_iff_ne] at h
  simp only [putsLoop, State.memRead_plain h.1 h.2]
  rw [if_neg hw]

/-- The loop ends at a plain zero cell. -/
theorem putsLoop_end {fuel : Nat} {a : Word} {s : State} (h : s.intercepted a = false) (hw : s.cell a = 0) :
    putsLoop (fuel + 1) a s = s := by
  simp only [State.intercepted, Bool.or_eq_false_iff, beq_eq_false_iff_ne] at h
  simp only [putsLoop, State.memRead_plain h.1 h.2]
  rw [if_pos hw]
  rfl

/-! ## The services -/

/-- What GETC can do from its `InTake` on. -/
theorem getcService_cases (s : State) :
    (s.inq = [] ∧ getcService s = .next (s.holdAt .getc)) ∨
    ∃ u q, s.inq = u :: q ∧ getcService s = .next ((s.takeUnits [u] q).setReg .r0 (zext16 u)) := by
  rcases s.inTake_cases with ⟨hq, e⟩ | ⟨u, q, hq, e⟩
  · exact .inl ⟨hq, by simp [getcService, e]⟩
  · exact .inr ⟨u, q, hq, by simp [getcService, e]⟩

/-- What IN can do from its `InTake` on. -/
theorem inTakeAndEcho_cases (s : State) :
    (s.inq = [] ∧ inTakeAndEcho s = .next (s.holdAt .inTake)) ∨
    ∃ u q, s.inq = u :: q ∧ inTakeAndEcho s = .next (((s.takeUnits [u] q).conPut u).setReg .r0 (zext16 u)) := by
  rcases s.inTake_cases with ⟨hq, e⟩ | ⟨u, q, hq, e⟩
  · exact .inl ⟨hq, by simp [inTakeAndEcho, e]⟩
  · exact .inr ⟨u, q, hq, by simp [inTakeAndEcho, e]⟩

/-- The Trap Table's entries. -/
theorem trapTable_cases (v : Byte) :
    (v = 0x20 ∧ trapTable v = .getc) ∨ (v = 0x21 ∧ trapTable v = .out) ∨ (v = 0x22 ∧ trapTable v = .puts) ∨
    (v = 0x23 ∧ trapTable v = .inp) ∨ (v = 0x25 ∧ trapTable v = .halt) ∨
    (v ≠ 0x20 ∧ v ≠ 0x21 ∧ v ≠ 0x22 ∧ v ≠ 0x23 ∧ v ≠ 0x25 ∧ trapTable v = .empty) := by
  unfold trapTable
  split_ifs <;> simp_all

/-! ## The cycle -/

/-- What a fetch can do: hold, or run the decoded instruction with the pc incremented. -/
theorem fetchExecute_cases (s : State) :
    (s.memRead s.pc = none ∧ fetchExecute s = .next (s.holdAt .fetch)) ∨
    ∃ ir t, s.memRead s.pc = some (ir, t) ∧ fetchExecute s = exec (decode ir) (t.setPc (s.pc + 1)) := by
  cases h : s.memRead s.pc with
  | none => exact .inl ⟨rfl, by simp [fetchExecute, h]⟩
  | some r =>
    obtain ⟨ir, t⟩ := r
    obtain ⟨_, _, _, ht⟩ := State.memRead_some h
    refine .inr ⟨ir, t, rfl, ?_⟩
    simp only [fetchExecute, h]
    rw [ht]
    rfl

/-- What a step can do: go on with a held cycle, halt at a stop request, run an instruction, or, HALTED, nothing. -/
theorem step_cases (s : State) :
    (∃ h, s.hold = some h ∧ step s = resume h (s.setHold none)) ∨
    (s.hold = none ∧ s.running = true ∧ s.stopReq = true ∧ step s = .next (s.setRunning false)) ∨
    (s.hold = none ∧ s.running = true ∧ s.stopReq = false ∧ step s = fetchExecute s) ∨
    (s.hold = none ∧ s.running = false ∧ step s = .fault .halted) := by
  cases hh : s.hold with
  | some h => exact .inl ⟨h, rfl, by simp [step, cycle, hh]⟩
  | none =>
    cases hr : s.running with
    | false => exact .inr (.inr (.inr ⟨rfl, rfl, by simp [step, cycle, hh, boundary, hr]⟩))
    | true =>
      cases hs : s.stopReq with
      | false => exact .inr (.inr (.inl ⟨rfl, rfl, rfl, by simp [step, cycle, hh, boundary, hr, hs]⟩))
      | true => exact .inr (.inl ⟨rfl, rfl, rfl, by simp [step, cycle, hh, boundary, hr, hs]⟩)

/-! ## The place of the next fetch -/

/-- No read of the fetch site is intercepted, whatever the build's addresses. -/
theorem State.fetchSite_plain (s : State) : s.intercepted s.fetchSite = false := by
  unfold State.fetchSite
  split
  · next h =>
    split
    · next h' =>
      simp only [State.intercepted, Bool.or_eq_true, beq_iff_eq] at h h'
      simp only [State.intercepted, Bool.or_eq_false_iff, beq_eq_false_iff_ne]
      have e : ∀ x : Word, x ≠ x + 1 := fun x => by bv_omega
      have e2 : ∀ x : Word, x + 2 ≠ x := fun x => by bv_omega
      have e3 : ∀ x : Word, x + 2 ≠ x + 1 := fun x => by bv_omega
      rcases h with h | h <;> rcases h' with h' | h'
      · exact absurd (h.trans h'.symm) (e _)
      · exact ⟨h ▸ e2 _, h' ▸ e3 _⟩
      · exact ⟨h' ▸ e3 _, h ▸ e2 _⟩
      · exact absurd (h.trans h'.symm) (e _)
    · next h' => simpa using h'
  · next h => simpa using h

/-- The word the host places is the instruction the next step runs (log 30). -/
theorem step_withFetchWord (s : State) (nbits w : Nat) (h : s.mem.wf = true) :
    step (s.withFetchWord nbits w) =
      exec (decode (BitVec.ofNat 16 (w % 2 ^ nbits)))
        ((s.withFetchWord nbits w).setPc ((s.withFetchWord nbits w).pc + 1)) := by
  have hp := s.fetchSite_plain
  simp only [State.intercepted, Bool.or_eq_false_iff, beq_eq_false_iff_ne] at hp
  have hc : (s.withFetchWord nbits w).cell s.fetchSite = BitVec.ofNat 16 (w % 2 ^ nbits) :=
    Memory.read_write_same h _ _
  have hr : (s.withFetchWord nbits w).memRead (s.withFetchWord nbits w).pc =
      some (BitVec.ofNat 16 (w % 2 ^ nbits), s.withFetchWord nbits w) :=
    (State.memRead_plain (s := s.withFetchWord nbits w) (a := s.fetchSite) hp.1 hp.2).trans (by rw [hc])
  rcases step_cases (s.withFetchWord nbits w) with ⟨h, e, _⟩ | ⟨_, _, e, _⟩ | ⟨_, _, _, e⟩ | ⟨_, e, _⟩
  · cases e
  · cases e
  · rcases fetchExecute_cases (s.withFetchWord nbits w) with ⟨e', _⟩ | ⟨ir, t, e', e''⟩
    · rw [hr] at e'; cases e'
    · rw [hr] at e'; cases e'; rw [e, e'']
  · cases e

/-! ## Memory operations keep the canonical form -/

theorem State.storeWords_wf (ws : List Word) : ∀ (s : State) (a : Word), s.mem.wf = true →
    (s.storeWords a ws).mem.wf = true := by
  induction ws with
  | nil => exact fun s a h => h
  | cons w rest ih => exact fun s a h => ih _ _ (State.memWrite_wf h a w)

/-- The image load keeps the canonical form. -/
theorem State.loadImage_wf (s : State) (ws : List Word) (h : s.mem.wf = true) : (s.loadImage ws).mem.wf = true := by
  cases ws with
  | nil => exact h
  | cons o rest => exact State.storeWords_wf rest s o h

/-- A read that completes leaves memory as it was. -/
theorem State.memRead_mem {s t : State} {a v : Word} (h : s.memRead a = some (v, t)) : t.mem = s.mem := by
  obtain ⟨_, _, _, e⟩ := State.memRead_some h
  rw [e]; rfl

@[simp] theorem State.launch_wf (c : Config) (q : List Byte) (b : Bool) : (State.launch c q b).mem.wf = true := rfl

end Sys2Proof.Machine
end

