-- ==== Sys2Proof/Laws/PerInstr.lean ====
section
/-! SUPPORT. Statements made for every instruction, one lemma for each constructor. -/

namespace Sys2Proof.Laws.EncodeRow

set_option Elab.async false

/-- The word of an instruction belongs to the opcode-table row the instruction is of (30_encoding.md R85 to R97). -/
def Statement (i : Instr) : Prop := i.row.has (encode i) = true

/-- Masking a word keeps the bits under the mask. -/
theorem has_of_bits {r : Row} {w : Word}
    (h : ∀ k, k < 16 → (w.getLsbD k && r.mask.getLsbD k) = r.pattern.getLsbD k) : r.has w = true := by
  simp only [Row.has, beq_iff_eq]
  apply BitVec.eq_of_getLsbD_eq
  intro k hk
  rw [BitVec.getLsbD_and]
  exact h k hk

theorem br (nzp : BitVec 3) (off9 : BitVec 9) : Statement (.br nzp off9) := has_of_bits fun k hk => by
  simp only [encode, Instr.row, BitVec.getLsbD_append]
  interval_cases k <;> simp

theorem addReg (dr sr1 sr2 : Reg) (ign : BitVec 2) : Statement (.addReg dr sr1 sr2 ign) := has_of_bits fun k hk => by
  simp only [encode, Instr.row, BitVec.getLsbD_append]
  interval_cases k <;> simp

theorem addImm (dr sr1 : Reg) (imm5 : BitVec 5) : Statement (.addImm dr sr1 imm5) := has_of_bits fun k hk => by
  simp only [encode, Instr.row, BitVec.getLsbD_append]
  interval_cases k <;> simp

theorem ld (dr : Reg) (off9 : BitVec 9) : Statement (.ld dr off9) := has_of_bits fun k hk => by
  simp only [encode, Instr.row, BitVec.getLsbD_append]
  interval_cases k <;> simp

theorem st (sr : Reg) (off9 : BitVec 9) : Statement (.st sr off9) := has_of_bits fun k hk => by
  simp only [encode, Instr.row, BitVec.getLsbD_append]
  interval_cases k <;> simp

theorem jsr (off11 : BitVec 11) : Statement (.jsr off11) := has_of_bits fun k hk => by
  simp only [encode, Instr.row, BitVec.getLsbD_append]
  interval_cases k <;> simp

theorem jsrr (base : Reg) (ignHi : BitVec 2) (ignLo : BitVec 6) : Statement (.jsrr base ignHi ignLo) := has_of_bits fun k hk => by
  simp only [encode, Instr.row, BitVec.getLsbD_append]
  interval_cases k <;> simp

theorem andReg (dr sr1 sr2 : Reg) (ign : BitVec 2) : Statement (.andReg dr sr1 sr2 ign) := has_of_bits fun k hk => by
  simp only [encode, Instr.row, BitVec.getLsbD_append]
  interval_cases k <;> simp

theorem andImm (dr sr1 : Reg) (imm5 : BitVec 5) : Statement (.andImm dr sr1 imm5) := has_of_bits fun k hk => by
  simp only [encode, Instr.row, BitVec.getLsbD_append]
  interval_cases k <;> simp

theorem ldr (dr base : Reg) (off6 : BitVec 6) : Statement (.ldr dr base off6) := has_of_bits fun k hk => by
  simp only [encode, Instr.row, BitVec.getLsbD_append]
  interval_cases k <;> simp

theorem str (sr base : Reg) (off6 : BitVec 6) : Statement (.str sr base off6) := has_of_bits fun k hk => by
  simp only [encode, Instr.row, BitVec.getLsbD_append]
  interval_cases k <;> simp

theorem rti (ign : BitVec 12) : Statement (.rti ign) := has_of_bits fun k hk => by
  simp only [encode, Instr.row, BitVec.getLsbD_append]
  interval_cases k <;> simp

theorem not (dr sr : Reg) (ign : BitVec 6) : Statement (.not dr sr ign) := has_of_bits fun k hk => by
  simp only [encode, Instr.row, BitVec.getLsbD_append]
  interval_cases k <;> simp

theorem ldi (dr : Reg) (off9 : BitVec 9) : Statement (.ldi dr off9) := has_of_bits fun k hk => by
  simp only [encode, Instr.row, BitVec.getLsbD_append]
  interval_cases k <;> simp

theorem sti (sr : Reg) (off9 : BitVec 9) : Statement (.sti sr off9) := has_of_bits fun k hk => by
  simp only [encode, Instr.row, BitVec.getLsbD_append]
  interval_cases k <;> simp

theorem jmp (base : Reg) (ignHi : BitVec 3) (ignLo : BitVec 6) : Statement (.jmp base ignHi ignLo) := has_of_bits fun k hk => by
  simp only [encode, Instr.row, BitVec.getLsbD_append]
  interval_cases k <;> simp

theorem reserved (ign : BitVec 12) : Statement (.reserved ign) := has_of_bits fun k hk => by
  simp only [encode, Instr.row, BitVec.getLsbD_append]
  interval_cases k <;> simp

theorem lea (dr : Reg) (off9 : BitVec 9) : Statement (.lea dr off9) := has_of_bits fun k hk => by
  simp only [encode, Instr.row, BitVec.getLsbD_append]
  interval_cases k <;> simp

theorem trap (vect8 : BitVec 8) (ign : BitVec 4) : Statement (.trap vect8 ign) := has_of_bits fun k hk => by
  simp only [encode, Instr.row, BitVec.getLsbD_append]
  interval_cases k <;> simp

end Sys2Proof.Laws.EncodeRow
end

