-- ==== Sys2Proof/Tests/Slice0.lean ====
section
/-! SUPPORT. Tests: words written out from the encodings of 30_encoding.md, ill-formed terms, one step on a small state
for each instruction with the values of 95_test_vectors.md, and for every obligation with hypotheses a witness that meets
them, each clause at a boundary. No expected value was taken from the model. -/

namespace Sys2Proof.Tests

open Sys2Proof Sys2Proof.Machine

/-! ## Decoding, bit by bit (30_encoding.md R85 to R95) -/

/-- `BRn #-256`: 0000, n 1, z 0, p 0, 1 0000 0000. -/
theorem test_decode_br : decode 0b0000100100000000 = .br 0b100 0b100000000 := by decide
/-- `ADD R0,R1,R2` with `ir[4:3]` = 11 (95_test_vectors.md 2.3). -/
theorem test_decode_addReg : decode 0b0001000001011010 = .addReg .r0 .r1 .r2 0b11 := by decide
/-- `ADD R1,R7,#-16`. -/
theorem test_decode_addImm : decode 0b0001001111110000 = .addImm .r1 .r7 0b10000 := by decide
/-- `LD R2,#-2`. -/
theorem test_decode_ld : decode 0b0010010111111110 = .ld .r2 0b111111110 := by decide
/-- `ST R3,#3`. -/
theorem test_decode_st : decode 0b0011011000000011 = .st .r3 0b000000011 := by decide
/-- `JSR #-1024`. -/
theorem test_decode_jsr : decode 0b0100110000000000 = .jsr 0b10000000000 := by decide
/-- `JSRR R2` with every ignored bit set. -/
theorem test_decode_jsrr : decode 0b0100011010111111 = .jsrr .r2 0b11 0b111111 := by decide
/-- `AND R0,R1,R2`. -/
theorem test_decode_andReg : decode 0b0101000001000010 = .andReg .r0 .r1 .r2 0b00 := by decide
/-- `AND R2,R3,#15`. -/
theorem test_decode_andImm : decode 0b0101010011101111 = .andImm .r2 .r3 0b01111 := by decide
/-- `LDR R4,R5,#-1`. -/
theorem test_decode_ldr : decode 0b0110100101111111 = .ldr .r4 .r5 0b111111 := by decide
/-- `STR R1,R2,#31`. -/
theorem test_decode_str : decode 0b0111001010011111 = .str .r1 .r2 0b011111 := by decide
/-- RTI with every ignored bit set. -/
theorem test_decode_rti : decode 0b1000111111111111 = .rti 0b111111111111 := by decide
/-- `NOT R6,R3`. -/
theorem test_decode_not : decode 0b1001110011111111 = .not .r6 .r3 0b111111 := by decide
/-- `LDI R1,#1`. -/
theorem test_decode_ldi : decode 0b1010001000000001 = .ldi .r1 0b000000001 := by decide
/-- `STI R3,#3`. -/
theorem test_decode_sti : decode 0b1011011000000011 = .sti .r3 0b000000011 := by decide
/-- `JMP R2` with every ignored bit set. -/
theorem test_decode_jmp : decode 0b1100111010111111 = .jmp .r2 0b111 0b111111 := by decide
/-- RESERVED with the top ignored bit set. -/
theorem test_decode_reserved : decode 0b1101100000000000 = .reserved 0b100000000000 := by decide
/-- `LEA R0,#-1`. -/
theorem test_decode_lea : decode 0b1110000111111111 = .lea .r0 0b111111111 := by decide
/-- `TRAP x25` with `ir[11:8]` = 1111. -/
theorem test_decode_trap : decode 0b1111111100100101 = .trap 0x25 0b1111 := by decide

/-- Image bytes are big-endian words (20_memory.md R60); one byte is no word. -/
theorem test_decode_bytes :
    decodeBytes [0x10, 0x42, 0xF0] = .ok (.addReg .r0 .r1 .r2 0, [0xF0]) ∧
    decodeBytes [0x10] = .error .halfWord ∧ decodeBytes [] = .error .noWord := by decide

/-- The host's question; a third byte is no instruction (R79). -/
theorem test_decode_table_word :
    decodeTableWord 16 0x16FF = some (.addImm .r3 .r3 0b11111) ∧ decodeTableWord 16 0x10000 = none ∧
    decodeTableWord 24 0x1042 = none := by decide

/-! ## Ill-formed terms are refused: one for each check of WellFormed -/

/-- Non-canonical instructions (30_encoding.md R104). -/
theorem test_not_canonical :
    Instr.canonical (.addReg .r0 .r1 .r2 0b11) = false ∧ Instr.canonical (.andReg .r0 .r1 .r2 0b01) = false ∧
    Instr.canonical (.jsrr .r2 0b01 0) = false ∧ Instr.canonical (.jsrr .r2 0 0b000001) = false ∧
    Instr.canonical (.jmp .r2 0b100 0) = false ∧ Instr.canonical (.jmp .r2 0 0b100000) = false ∧
    Instr.canonical (.rti 1) = false ∧ Instr.canonical (.reserved 1) = false ∧
    Instr.canonical (.not .r0 .r1 0b011111) = false ∧ Instr.canonical (.trap 0x25 0b1000) = false := by decide

/-- The other formats have no ignored bit: every term is canonical. -/
theorem test_canonical :
    Instr.canonical (.br 0b111 0b111111111) = true ∧ Instr.canonical (.not .r0 .r1 0b111111) = true := by decide

/-- Assembly terms just outside the range of an operand (R82, R102 to R105). -/
theorem test_asm_ill_formed :
    Asm.wellFormed (.addImm .r0 .r0 16) = false ∧ Asm.wellFormed (.addImm .r0 .r0 (-17)) = false ∧
    Asm.wellFormed (.andImm .r0 .r0 16) = false ∧ Asm.wellFormed (.br false false false 1) = false ∧
    Asm.wellFormed (.br true true true 256) = false ∧ Asm.wellFormed (.ld .r0 (-257)) = false ∧
    Asm.wellFormed (.st .r0 256) = false ∧ Asm.wellFormed (.jsr 1024) = false ∧
    Asm.wellFormed (.ldr .r0 .r0 32) = false ∧ Asm.wellFormed (.str .r0 .r0 (-33)) = false ∧
    Asm.wellFormed (.ldi .r0 256) = false ∧ Asm.wellFormed (.sti .r0 256) = false ∧
    Asm.wellFormed (.lea .r0 256) = false ∧ Asm.wellFormed (.trap 256) = false ∧
    Asm.wellFormed (.fill 65536) = false := by decide

/-- Assembled words of 95_test_vectors.md. -/
theorem test_assemble :
    Asm.assemble (.addImm .r3 .r3 (-1)) = 0x16FF ∧ Asm.assemble (.br false true false 2) = 0x0402 ∧
    Asm.assemble (.not .r0 .r1) = 0x907F ∧ Asm.assemble (.jsr (-1024)) = 0x4C00 ∧
    Asm.assemble (.ldr .r4 .r5 (-1)) = 0x697F ∧ Asm.assemble .ret = 0xC1C0 := by decide

/-! ## One step of each instruction (95_test_vectors.md sections 1 and 2) -/

/-- One step from a state with the word placed at its pc. -/
def ran (w : Word) (s : State) : Result := step (s.setCell s.pc w)

/-- What a next state shows. -/
def seen {α : Type} (r : Result) (f : State → α) : Option α :=
  match r with
  | .next t => some (f t)
  | .fault _ => none
  | .refused _ => none

/-- The start state with one register set. -/
def startReg (r : Reg) (v : Word) : State := State.reset.setReg r v

/-- The start state with one cell set. -/
def startCell (a v : Word) : State := State.reset.setCell a v

/-- Signed overflow, no event. -/
theorem test_step_addReg :
    seen (ran 0x1042 ((startReg .r1 0x7FFF).setReg .r2 1)) (fun t => (t.reg .r0, t.cond, t.pc)) =
      some (0x8000, 0b100, 0x3001) := by decide
theorem test_step_addImm :
    seen (ran 0x1FFF (startReg .r7 0x8000)) (fun t => (t.reg .r7, t.cond)) = some (0x7FFF, 0b001) := by decide
theorem test_step_andReg :
    seen (ran 0x5042 ((startReg .r1 0xFF0F).setReg .r2 0x0FF0)) (fun t => (t.reg .r0, t.cond)) =
      some (0x0F00, 0b001) := by decide
/-- A negative immediate is the mask `0xFFF0`. -/
theorem test_step_andImm :
    seen (ran 0x54F0 (startReg .r3 0x1234)) (fun t => (t.reg .r2, t.cond)) = some (0x1230, 0b001) := by decide
theorem test_step_not :
    seen (ran 0x9040 (startReg .r1 0x000F)) (fun t => (t.reg .r0, t.cond)) = some (0xFFF0, 0b100) := by decide
/-- The pc and the address both wrap. -/
theorem test_step_ld :
    seen (ran 0x2001 ((startCell 0x0001 0x7FFF).setPc 0xFFFF)) (fun t => (t.reg .r0, t.cond, t.pc)) =
      some (0x7FFF, 0b001, 0x0000) := by decide
/-- Via KBDR: the oldest unit is taken. -/
theorem test_step_ldi :
    seen (ran 0xA201 ((startCell 0x3002 0xFE02).setInq [0x41, 0x42])) (fun t => (t.reg .r1, t.cond, t.inq)) =
      some (0x0041, 0b001, [0x42]) := by decide
/-- Via KBDR with none pending: a hold after the pointer read. -/
theorem test_step_ldi_holds :
    seen (ran 0xA201 (startCell 0x3002 0xFE02)) (fun t => (t.reg .r1, t.pc, t.hold)) =
      some (0, 0x3001, some (.load .r1)) := by decide
theorem test_step_ldr :
    seen (ran 0x6960 ((startReg .r5 0x0010).setCell 0xFFF0 0x8001)) (fun t => (t.reg .r4, t.cond)) =
      some (0x8001, 0b100) := by decide
theorem test_step_lea :
    seen (ran 0xE1FF State.reset) (fun t => (t.reg .r0, t.cond)) = some (0x3000, 0b001) := by decide
/-- An address from `0x8000` up is negative. -/
theorem test_step_lea_negative :
    seen (ran 0xE000 (State.reset.setPc 0x7FFF)) (fun t => (t.reg .r0, t.cond)) = some (0x8000, 0b100) := by decide
/-- It overwrites its own word, already fetched. -/
theorem test_step_st :
    seen (ran 0x37FF (startReg .r3 0x1111)) (fun t => (t.cell 0x3000, t.cond)) = some (0x1111, 0b010) := by decide
theorem test_step_sti :
    seen (ran 0xB603 ((startReg .r3 0xABCD).setCell 0x3004 0x5000)) (fun t => (t.cell 0x5000, t.cell 0x3004)) =
      some (0xABCD, 0x5000) := by decide
theorem test_step_str :
    seen (ran 0x72A0 (startReg .r1 0x1234)) (fun t => t.cell 0xFFE0) = some 0x1234 := by decide
/-- `BRz #2`: taken with Z, not taken with N. -/
theorem test_step_br :
    seen (ran 0x0402 State.reset) State.pc = some 0x3003 ∧
    seen (ran 0x0402 (State.reset.setCond 0b100)) State.pc = some 0x3001 := by decide
/-- `BRn` and `BRp`, the two outer bits. -/
theorem test_step_br_outer :
    seen (ran 0x0900 (State.reset.setCond 0b100)) State.pc = some 0x2F01 ∧
    seen (ran 0x02FF (State.reset.setCond 0b001)) State.pc = some 0x3100 := by decide
theorem test_step_jmp : seen (ran 0xCEBF (startReg .r2 0x4000)) State.pc = some 0x4000 := by decide
theorem test_step_jsr : seen (ran 0x4C00 State.reset) (fun t => (t.reg .r7, t.pc)) = some (0x3001, 0x2C01) := by decide
theorem test_step_jsrr :
    seen (ran 0x46BF (startReg .r2 0x5000)) (fun t => (t.reg .r7, t.pc)) = some (0x3001, 0x5000) := by decide
/-- `JSRR R7` falls through. -/
theorem test_step_jsrr_link :
    seen (ran 0x41C0 (startReg .r7 0x5000)) (fun t => (t.reg .r7, t.pc)) = some (0x3001, 0x3001) := by decide
theorem test_step_rti :
    seen (ran 0x8FFF (startReg .r6 0x2FFE)) (fun t => (t.reg .r6, t.pc, t.cond)) = some (0x2FFE, 0x3001, 0b010) := by
  decide
theorem test_step_reserved :
    seen (ran 0xDFFF State.reset) (fun t => (t.reg .r7, t.pc, t.cond)) = some (0, 0x3001, 0b010) := by decide
/-- GETC, OUT, IN and HALT; a vector with no service still writes R7. -/
theorem test_step_trap :
    seen (ran 0xF020 ((startReg .r0 0xFFFF).setInq [0xFF])) (fun t => (t.reg .r0, t.cond, t.inq, t.out)) =
      some (0x00FF, 0b010, [], []) ∧
    seen (ran 0xF021 (startReg .r0 0x1241)) (fun t => (t.reg .r0, t.out)) = some (0x1241, [0x41]) ∧
    seen (ran 0xF023 (State.reset.setInq [0x7A])) (fun t => (t.reg .r0, t.out.length, t.out.getLast?)) =
      some (0x007A, 20, some 0x7A) ∧
    seen (ran 0xFF25 State.reset) (fun t => (t.reg .r7, t.running, t.out)) =
      some (0x3001, false, [0x48, 0x41, 0x4C, 0x54, 0x0A]) ∧
    seen (ran 0xF024 State.reset) (fun t => (t.reg .r7, t.pc, t.out)) = some (0x3001, 0x3001, []) := by decide
/-- PUTS over KBSR with a unit pending: the read gives `0x8000`, no terminator, low byte zero. -/
theorem test_step_puts :
    seen (ran 0xF022 (((startReg .r0 0xFDFF).setCell 0xFDFF 0x0041).setInq [0x5A])) (fun t => (t.out, t.inq, t.hold)) =
      some ([0x41, 0x00], [0x5A], none) := by decide

/-- What an observer sees of the input: the units taken, in order (10_state.md R35). -/
theorem test_observe_taken :
    seen (ran 0xF020 (State.reset.setInq [0x41, 0x42])) (fun t => t.observe.taken) = some [0x41] ∧
    State.reset.observe.taken = [] := by decide

/-! ## The cycle (95_test_vectors.md 2.7) -/

/-- A stop request at a boundary: nothing is fetched; HALTED: no step. -/
theorem test_boundary :
    seen (ran 0x1021 (State.reset.setStopReq true)) (fun t => (t.running, t.pc, t.reg .r0)) =
      some (false, 0x3000, 0) ∧
    step (State.reset.setRunning false) = .fault .halted := ⟨by decide, rfl⟩
/-- A fetch from KBDR takes a unit and executes it, or holds and changes nothing. -/
theorem test_fetch_kbdr :
    seen (step ((State.reset.setPc 0xFE02).setInq [0x41])) (fun t => (t.pc, t.inq)) = some (0xFE03, []) ∧
    seen (step (State.reset.setPc 0xFE02)) (fun t => (t.pc, t.hold)) = some (0xFE02, some .fetch) := by decide
/-- The host's placed word is the instruction of the very next step, from reset and at an intercepted pc. -/
theorem test_with_fetch_word :
    seen (step (State.reset.withFetchWord 16 0x1025)) (fun t => t.reg .r0) = some 5 ∧
    seen (step ((State.reset.setPc 0xFE02).withFetchWord 16 0x1025)) (fun t => t.reg .r0) = some 5 := by decide

/-! ## Witnesses: for each obligation with hypotheses, concrete values that meet them -/

/-- Signed operands at both ends of their fields. -/
theorem witness_AssembledWordDecodes :
    Asm.wellFormed (.addImm .r0 .r7 (-16)) = true ∧ Asm.instr (.addImm .r0 .r7 (-16)) = some (.addImm .r0 .r7 0b10000) ∧
    Asm.wellFormed (.jsr 1023) = true ∧ Asm.instr (.jsr 1023) = some (.jsr 0b01111111111) ∧
    Asm.wellFormed (.br true true true (-256)) = true ∧
    Asm.instr (.br true true true (-256)) = some (.br 0b111 0b100000000) ∧
    Asm.wellFormed (.trap 255) = true ∧ Asm.instr (.trap 255) = some (.trap 0xFF 0) := by decide

/-- Both clauses at the least and the greatest width, and at the values where they meet. -/
theorem witness_SignExtensionOfField :
    ((0x0 : Word).toNat < 2 ^ 1 ∧ (0x0 : Word).getLsbD 0 = false) ∧
    ((0x1 : Word).toNat < 2 ^ 1 ∧ (0x1 : Word).getLsbD 0 = true) ∧
    ((0x0F : Word).toNat < 2 ^ 5 ∧ (0x0F : Word).getLsbD 4 = false) ∧
    ((0x10 : Word).toNat < 2 ^ 5 ∧ (0x10 : Word).getLsbD 4 = true) ∧
    ((0x7FFF : Word).toNat < 2 ^ 15 ∧ (0x7FFF : Word).getLsbD 14 = true) := by decide

/-- The lowest one-bit field, the whole word and the opcode field. -/
theorem witness_ExtractIsTheField :
    (0 ≤ 15 ∧ 1 ≤ 1 ∧ 1 ≤ 0 + 1 ∧ 15 < 16) ∧ (15 ≤ 15 ∧ 1 ≤ 16 ∧ 16 ≤ 15 + 1 ∧ 0 < 16) ∧
    (15 ≤ 15 ∧ 1 ≤ 4 ∧ 4 ≤ 15 + 1 ∧ 3 < 16) := by decide

/-- The values at the ends of the three clauses. -/
theorem witness_SetccPartitionsTheValues :
    ((startReg .r1 0).reg .r1).toNat = 0 ∧ 1 ≤ ((startReg .r1 1).reg .r1).toNat ∧
    ((startReg .r1 0x7FFF).reg .r1).toNat ≤ 0x7FFF ∧ 0x8000 ≤ ((startReg .r1 0x8000).reg .r1).toNat ∧
    0x8000 ≤ ((startReg .r1 0xFFFF).reg .r1).toNat := by decide

/-- Distinct addresses; nothing pending, two units pending; the plain address between the two. -/
theorem witness_MemoryUnitRead :
    State.reset.config.kbsrAddress ≠ State.reset.config.kbdrAddress ∧ State.reset.inq = [] ∧
    (State.reset.setInq [0x00, 0xFF]).config.kbsrAddress ≠ (State.reset.setInq [0x00, 0xFF]).config.kbdrAddress ∧
    (State.reset.setInq [0x00, 0xFF]).inq = 0x00 :: [0xFF] ∧ (0xFE01 : Word) ≠ State.reset.config.kbsrAddress ∧
    (0xFE01 : Word) ≠ State.reset.config.kbdrAddress := by decide

theorem witness_WriteThenRead :
    (startCell 0xFFFF 1).mem.wf = true ∧ (0xFFFF : Word) ≠ (startCell 0xFFFF 1).config.kbsrAddress ∧
    (0xFFFF : Word) ≠ (startCell 0xFFFF 1).config.kbdrAddress := by decide

theorem witness_DeviceCellIsNeverReadBack :
    (0xFE00 : Word) = State.reset.config.kbsrAddress ∧ (0xFE02 : Word) = State.reset.config.kbdrAddress := by decide

/-- A plain read and one that takes a unit. -/
theorem witness_LoadResults :
    (startCell 0x2F00 7).memRead ((startCell 0x2F00 7).pc + (0b100000000#9).signExtend 16) =
      some (7, startCell 0x2F00 7) ∧
    ((startReg .r5 0xFE22).setInq [9]).memRead
        (((startReg .r5 0xFE22).setInq [9]).reg .r5 + (0b100000#6).signExtend 16) =
      some (9, (startReg .r5 0xFE22).takeUnits [9] []) := by decide

theorem witness_LdiReadsPointerThenData :
    (startCell 0x3001 0xFE00).memRead ((startCell 0x3001 0xFE00).pc + (1#9).signExtend 16) =
      some (0xFE00, startCell 0x3001 0xFE00) ∧
    (startCell 0x3001 0xFE00).memRead 0xFE00 = some (0, startCell 0x3001 0xFE00) := by decide

/-- The five clauses: a pc-relative, a base-relative address at KBDR, and a pointer to it. -/
theorem witness_ReadsHoldAtKbdr :
    (State.reset.setPc 0xFE01).memRead ((State.reset.setPc 0xFE01).pc + (1#9).signExtend 16) = none ∧
    (startReg .r5 0xFE03).memRead ((startReg .r5 0xFE03).reg .r5 + (0b111111#6).signExtend 16) = none ∧
    (startCell 0x3001 0xFE02).memRead ((startCell 0x3001 0xFE02).pc + (1#9).signExtend 16) =
      some (0xFE02, startCell 0x3001 0xFE02) ∧
    (startCell 0x3001 0xFE02).memRead 0xFE02 = none := by decide

/-- The three clauses; STI's pointer read from KBDR. -/
theorem witness_StoreResults :
    State.reset.mem.wf = true ∧ ((State.reset.setPc 0xFE01).setInq [0x50]).mem.wf = true ∧
    ((State.reset.setPc 0xFE01).setInq [0x50]).memRead
        (((State.reset.setPc 0xFE01).setInq [0x50]).pc + (1#9).signExtend 16) =
      some (0x50, (State.reset.setPc 0xFE01).takeUnits [0x50] []) := by decide

/-- Each form of both clauses completes from reset without a hold. -/
theorem witness_DataMovementFlags :
    State.reset.hold = none ∧
    seen (exec (.ld .r0 0) State.reset) State.hold = some none ∧
    seen (exec (.ldi .r0 0) State.reset) State.hold = some none ∧
    seen (exec (.ldr .r0 .r1 0) State.reset) State.hold = some none ∧
    seen (exec (.lea .r0 0) State.reset) State.hold = some none ∧
    seen (exec (.st .r0 0) State.reset) State.hold = some none ∧
    seen (exec (.sti .r0 0) State.reset) State.hold = some none ∧
    seen (exec (.str .r0 .r1 0) State.reset) State.hold = some none := by decide

/-- Each legal condition code, with a branch that is taken and one that is not. -/
theorem witness_BranchRule :
    (State.reset.setCond 0b100).cond = 0b100 ∧ State.reset.cond = 0b010 ∧ (State.reset.setCond 0b001).cond = 0b001 ∧
    (State.launch ⟨0xFE00, 0xFE02, 0b000, [], []⟩ [] false).cond = 0b000 := by decide

theorem witness_ControlFlagsAndRegisters :
    exec (.br 0b010 2) State.reset = .next (State.reset.setPc 0x3002) ∧
    exec (.jmp .r7 0 0) State.reset = .next (State.reset.setPc 0) ∧
    exec (.jsr 0) State.reset = .next (startReg .r7 0x3000) ∧
    exec (.jsrr .r7 0 0) State.reset = .next (startReg .r7 0x3000) := ⟨rfl, rfl, rfl, rfl⟩

theorem witness_GetcResult : (State.reset.setInq [0x00]).inq = 0x00 :: [] := rfl

theorem witness_InResult : (State.reset.setInq [0xFF, 0x0A]).inq = 0xFF :: [0x0A] := rfl

/-- A string that wraps: `0xFFFF`, then the zero cell at 0; and the empty string. -/
theorem witness_PutsPrintsString :
    (let s := (startReg .r0 0xFFFF).setCell 0xFFFF 0x0141
     (∀ k (h : k < [(0x0141 : Word)].length), s.cell (s.reg .r0 + BitVec.ofNat 16 k) = [(0x0141 : Word)][k] ∧
       [(0x0141 : Word)][k] ≠ 0) ∧
     s.cell (s.reg .r0 + BitVec.ofNat 16 1) = 0 ∧
     ∀ k, k ≤ 1 → s.intercepted (s.reg .r0 + BitVec.ofNat 16 k) = false) ∧
    State.reset.cell (State.reset.reg .r0 + BitVec.ofNat 16 0) = 0 ∧
    State.reset.intercepted (State.reset.reg .r0 + BitVec.ofNat 16 0) = false := by
  refine ⟨⟨fun k h => ?_, by decide, fun k h => ?_⟩, by decide, by decide⟩
  · obtain rfl : k = 0 := by simpa using h
    exact ⟨rfl, show (0x0141 : Word) ≠ 0 by decide⟩
  · interval_cases k <;> decide

/-- Both ends of the third clause: a string that ends, and one that starts at KBDR and holds. -/
theorem witness_PutsEndsOrHoldsAtKbdr :
    State.reset.config.legal = true ∧ State.reset.hold = none ∧
    seen (exec (.trap 0x22 0) State.reset) State.hold = some none ∧
    seen (exec (.trap 0x22 0) (startReg .r0 0xFE02)) State.hold = some (some (.puts 0xFE02)) := by decide

/-- The vectors beside the mapped ones, and the ends of the range. -/
theorem witness_UnmappedVectorResult :
    ∀ v ∈ ([0x00, 0x1F, 0x24, 0x26, 0xFF] : List Byte), v ≠ 0x20 ∧ v ≠ 0x21 ∧ v ≠ 0x22 ∧ v ≠ 0x23 ∧ v ≠ 0x25 := by
  decide

theorem witness_GetcAndInHold : State.reset.inq = [] := rfl

/-- One RTI word and one RESERVED word, and none. -/
theorem witness_NoOpsAnyNumberOfTimes :
    (let s := (startCell 0x3000 0x8000).setCell 0x3001 0xDFFF
     s.hold = none ∧ s.running = true ∧ s.stopReq = false ∧
     ∀ k, k < 2 → s.intercepted (s.pc + BitVec.ofNat 16 k) = false ∧
       ∃ ign, decode (s.cell (s.pc + BitVec.ofNat 16 k)) = .rti ign ∨
         decode (s.cell (s.pc + BitVec.ofNat 16 k)) = .reserved ign) := by
  refine ⟨rfl, rfl, rfl, fun k h => ?_⟩
  interval_cases k
  · exact ⟨by decide, 0, .inl (by decide)⟩
  · exact ⟨by decide, 0xFFF, .inr (by decide)⟩

/-- Both clauses: a fetch from plain storage, one from KBDR that holds. -/
theorem witness_StepRunsDecodedInstruction :
    State.reset.hold = none ∧ State.reset.running = true ∧ State.reset.stopReq = false ∧
    State.reset.memRead State.reset.pc = some (0, State.reset) ∧
    (State.reset.setPc 0xFE02).memRead (State.reset.setPc 0xFE02).pc = none := by decide

/-- A state that holds at `h` with the unit `u` pending; its pc is `KBDR_ADDRESS`. -/
def heldWith (h : Hold) (u : Byte) : State := ((State.reset.setPc 0xFE02).setInq [u]).holdAt h

/-- A core that holds in the pointer read of LDI, in a build whose `KBDR_ADDRESS` is the unit that is pending. -/
def heldLow : State := (State.launch ⟨0xFE00, 0x0041, 0b010, [], []⟩ [0x41] false).holdAt (.ldiPointer .r3)

/-- The seven hold points, each with a unit pending; the pointer of LDI is the unit, and the data read at it completes or
holds. -/
theorem witness_HeldCycleGoesOn :
    (∀ h ∈ ([.fetch, .load .r3, .stiPointer .r3, .ldiPointer .r3, .puts 0xFE02, .getc, .inTake] : List Hold),
      ∀ u ∈ ([0x00, 0xFF] : List Byte),
        (heldWith h u).config.legal = true ∧ (heldWith h u).inq = u :: [] ∧ (heldWith h u).hold = some h ∧
        (heldWith h u).pc = (heldWith h u).config.kbdrAddress ∧ (heldWith h u).mem.wf = true) ∧
    (0xFE02 : Word) = (heldWith .fetch 0).config.kbdrAddress ∧
    ((heldWith (.ldiPointer .r3) 0x41).tookUnit 0x41 []).memRead 0x41 =
      some (0, (heldWith (.ldiPointer .r3) 0x41).tookUnit 0x41 []) ∧
    heldLow.config.legal = true ∧ heldLow.inq = 0x41 :: [] ∧ heldLow.hold = some (.ldiPointer .r3) ∧
    (heldLow.tookUnit 0x41 []).memRead 0x41 = none := by decide

/-- A core that holds in GETC, with `x[7]` written. -/
theorem witness_HeldCoreWaits :
    ((startReg .r7 0x3000).holdAt .getc).Inv ∧ ((startReg .r7 0x3000).holdAt .getc).hold ≠ none ∧
    ((startReg .r7 0x3000).holdAt .getc).inq = [] :=
  ⟨⟨by decide, by decide, by decide, by decide⟩, by decide, by decide⟩

/-- A system that has run, with this core. -/
def ranSystem (s : State) : System := ⟨s, s.inq, true, false⟩

/-- A hold with nothing pending: the core's step and an arrival can happen, reset cannot (60_exceptions.md R256). -/
theorem witness_HeldCoreWaits_held :
    (ranSystem ((startReg .r7 0x3000).holdAt .getc)).Inv ∧
    (ranSystem ((startReg .r7 0x3000).holdAt .getc)).core.hold ≠ none ∧
    ((ranSystem ((startReg .r7 0x3000).holdAt .getc)).apply .cycle).isSome = true ∧
    ((ranSystem ((startReg .r7 0x3000).holdAt .getc)).apply (.deliver 0x41)).isSome = true ∧
    (ranSystem ((startReg .r7 0x3000).holdAt .getc)).apply .reset = none :=
  ⟨⟨⟨by decide, by decide, by decide, by decide⟩, rfl, nofun⟩, by decide, by decide, by decide, by decide⟩

/-- A HALTED core: reset can happen, a step cannot. -/
theorem witness_HeldCoreWaits_halted :
    (ranSystem (State.reset.setRunning false)).Inv ∧ (ranSystem (State.reset.setRunning false)).core.running = false ∧
    ((ranSystem (State.reset.setRunning false)).apply .reset).isSome = true ∧
    (ranSystem (State.reset.setRunning false)).apply .cycle = none :=
  ⟨⟨⟨by decide, by decide, by decide, by decide⟩, rfl, nofun⟩, by decide, by decide, by decide⟩

theorem witness_StopRequestOnlyAtBoundary :
    (State.reset.setStopReq true).hold = none ∧ (State.reset.setStopReq true).running = true ∧
    (State.reset.setStopReq true).stopReq = true ∧ (State.reset.holdAt .inTake).hold ≠ none := by decide

theorem witness_StepIsTotalButHalted :
    ((State.reset.setRunning false).hold = none ∧ (State.reset.setRunning false).running = false) ∧
    ¬ (State.reset.hold = none ∧ State.reset.running = false) := by decide

/-- Both ways: a stop request, and a HALT word. -/
theorem witness_OnlyHaltAndStopEndTheRun :
    ((State.reset.setStopReq true).Inv ∧ (State.reset.setStopReq true).running = true ∧
      seen (step (State.reset.setStopReq true)) State.running = some false) ∧
    ((startCell 0x3000 0xF025).Inv ∧ (startCell 0x3000 0xF025).running = true ∧
      seen (step (startCell 0x3000 0xF025)) State.running = some false) :=
  ⟨⟨⟨by decide, by decide, by decide, by decide⟩, by decide, by decide⟩,
    ⟨⟨by decide, by decide, by decide, by decide⟩, by decide, by decide⟩⟩

theorem witness_HaltWordEndsTheRun :
    (startCell 0x3000 0xFF25).hold = none ∧ (startCell 0x3000 0xFF25).running = true ∧
    (startCell 0x3000 0xFF25).stopReq = false ∧
    (startCell 0x3000 0xFF25).memRead (startCell 0x3000 0xFF25).pc = some (0xFF25, startCell 0x3000 0xFF25) ∧
    decode 0xFF25 = .trap 0x25 0b1111 := by decide

theorem witness_StoredWordIsFetchedNext :
    State.reset.mem.wf = true ∧ State.reset.hold = none ∧ State.reset.running = true ∧
    State.reset.stopReq = false ∧ State.reset.intercepted State.reset.pc = false := by decide

/-- The premises with the addresses of the LD, LDR, LDI, STI and fetch clauses. -/
theorem witness_HoldThenArrivalIsArrivalFirst :
    (∀ s ∈ ([State.reset, State.reset.setPc 0xFE01, startReg .r5 0xFE03, State.reset.setPc 0xFE02,
        startCell 0x3001 0xFE02] : List State),
      s.hold = none ∧ s.inq = [] ∧ s.config.legal = true ∧ s.running = true ∧ s.stopReq = false) ∧
    (State.reset.setPc 0xFE01).pc + (1#9).signExtend 16 = (State.reset.setPc 0xFE01).config.kbdrAddress ∧
    (startReg .r5 0xFE03).reg .r5 + (0b111111#6).signExtend 16 = (startReg .r5 0xFE03).config.kbdrAddress ∧
    (State.reset.setPc 0xFE02).pc = (State.reset.setPc 0xFE02).config.kbdrAddress ∧
    (startCell 0x3001 0xFE02).intercepted ((startCell 0x3001 0xFE02).pc + (1#9).signExtend 16) = false ∧
    (startCell 0x3001 0xFE02).cell ((startCell 0x3001 0xFE02).pc + (1#9).signExtend 16) =
      (startCell 0x3001 0xFE02).config.kbdrAddress := by decide

theorem witness_OnlyControlTransfersWritePc :
    exec (.trap 0x00 0) State.reset = .next State.reset.trapEntry ∧
    (∀ nzp off9, Instr.trap 0x00 0 ≠ .br nzp off9) ∧ (∀ b h l, Instr.trap 0x00 0 ≠ .jmp b h l) ∧
    (∀ off11, Instr.trap 0x00 0 ≠ .jsr off11) ∧ (∀ b h l, Instr.trap 0x00 0 ≠ .jsrr b h l) :=
  ⟨rfl, nofun, nofun, nofun, nofun⟩

/-- An instruction that sets no flag, one that completes, and one that holds. -/
theorem witness_OnlySevenInstructionsSetFlags :
    (exec (.reserved 0) State.reset = .next State.reset ∧ Instr.flagDest (.reserved 0) = none) ∧
    (exec (.not .r7 .r7 0) State.reset = .next (State.reset.writeDest .r7 0xFFFF) ∧
      Instr.flagDest (.not .r7 .r7 0) = some .r7 ∧ State.reset.hold = none ∧
      (State.reset.writeDest .r7 0xFFFF).hold = none) ∧
    (exec (.ldr .r0 .r5 0) (startReg .r5 0xFE02) = .next ((startReg .r5 0xFE02).holdAt (.load .r0)) ∧
      Instr.flagDest (.ldr .r0 .r5 0) = some .r0 ∧
      ((startReg .r5 0xFE02).holdAt (.load .r0)).hold ≠ (startReg .r5 0xFE02).hold) :=
  ⟨⟨rfl, rfl⟩, ⟨rfl, rfl, rfl, rfl⟩, ⟨rfl, rfl, by decide⟩⟩

theorem witness_OnlyListedRegistersAreWritten :
    exec (.trap 0x21 0) State.reset = .next (State.reset.trapEntry.conPut 0) ∧
    Instr.mayWrite (.trap 0x21 0) .r0 = false ∧ Instr.mayWrite (.trap 0x21 0) .r6 = false := ⟨rfl, rfl, rfl⟩

/-- A store, and a form that stores nothing. -/
theorem witness_OnlyTheStoreAddressIsWritten :
    (exec (.st .r0 0) State.reset = .next (State.reset.memWrite 0x3000 0) ∧
      Instr.storeAddress (.st .r0 0) State.reset ≠ some 0x3001) ∧
    (exec (.rti 0) State.reset = .next State.reset ∧ Instr.storeAddress (.rti 0) State.reset ≠ some 0x3000) :=
  ⟨⟨rfl, by decide⟩, ⟨rfl, by decide⟩⟩

theorem witness_OnlyBranchReadsCond :
    exec (.lea .r0 0) State.reset = .next (State.reset.writeDest .r0 0x3000) ∧
    (∀ nzp off9, Instr.lea .r0 0 ≠ .br nzp off9) ∧ Instr.flagDest (.lea .r0 0) = some .r0 ∧
    State.reset.hold = none ∧ (State.reset.writeDest .r0 0x3000).hold = none := ⟨rfl, nofun, rfl, rfl, rfl⟩

theorem witness_InputInOrderConsoleAppends :
    step (State.reset.setStopReq true) = .next ((State.reset.setStopReq true).setRunning false) := rfl

/-- An image that wraps: its words are at `0xFFFF` and 0; address 1 is outside it. -/
theorem witness_ImageLoadPlacesWords :
    State.reset.mem.wf = true ∧ [(0x1261 : Word), 0xF025].length ≤ 65536 ∧ 1 < [(0x1261 : Word), 0xF025].length ∧
    ∀ k, k < 2 → (1 : Word) ≠ 0xFFFF + BitVec.ofNat 16 k := by
  refine ⟨by decide, by decide, by decide, fun k h => ?_⟩
  interval_cases k <;> decide

/-- Both values of `COND_RESET`. -/
theorem witness_LaunchMeetsInvariant :
    Config.default.legal = true ∧ Config.legal ⟨0x0000, 0xFFFF, 0b000, [], []⟩ = true := by decide

theorem witness_StepKeepsInvariant :
    (startCell 0x3000 0xF025).Inv ∧ seen (step (startCell 0x3000 0xF025)) State.pc = some 0x3001 :=
  ⟨⟨by decide, by decide, by decide, by decide⟩, by decide⟩

/-- A run in which every event happens. -/
theorem witness_EveryRunKeepsInvariant :
    (System.launch Config.default [] false).Inv ∧
    ∃ z, (System.launch Config.default [] false).run
      [.hostWrite 0x4000 0xF020, .hostSetPc 0x4000, .raiseStop, .lowerStop, .cycle, .deliver 0x41, .cycle, .reset] =
        some z :=
  ⟨⟨⟨by decide, by decide, by decide, by decide⟩, rfl, fun _ => ⟨rfl, rfl⟩⟩, _, rfl⟩

end Sys2Proof.Tests
end

section
/-! PROOF. The statements of 10_state.md: a register write (R20), `setcc` (R25), and the condition code as a value that
BR alone reads (R28). -/

namespace Sys2Proof.Machine

/-! ## A register write and `setcc` -/

/-- Settles O10: the register rules of `setReg`, and every other field by its own equation. -/
theorem registerWriteChangesOnlyIt : Obligations.RegisterWriteChangesOnlyIt := by
  unfold Obligations.RegisterWriteChangesOnlyIt
  intro s i v
  exact ⟨s.reg_setReg_same i v, fun r h => s.reg_setReg_other i r v h, rfl, rfl, fun _ => rfl,
    ⟨rfl, rfl, rfl, rfl, rfl, rfl, rfl⟩⟩

/-- The flag of a value by its unsigned reading, the three ranges of 10_state.md R25. -/
theorem condOf_eq_toNat (v : Word) :
    condOf v = if v.toNat = 0 then flZ else if 0x8000 ≤ v.toNat then flN else flP := by
  have hz : v = 0x0000 ↔ v.toNat = 0 := by bv_omega
  have hn : v.getLsbD 15 = decide (0x8000 ≤ v.toNat) :=
    (BitVec.msb_eq_getLsbD_last v).symm.trans (BitVec.msb_eq_decide v)
  simp only [condOf, hz, hn, decide_eq_true_eq]

/-- Settles O11: the three ranges of `condOf_eq_toNat`, and `setcc` writes no field but `cond`. -/
theorem setccPartitionsTheValues : Obligations.SetccPartitionsTheValues := by
  unfold Obligations.SetccPartitionsTheValues
  intro s i
  refine ⟨fun hz => ?_, fun hlo hhi => ?_, fun hn => ?_, fun _ => rfl, rfl, fun _ => rfl,
    ⟨rfl, rfl, rfl, rfl, rfl, rfl, rfl⟩⟩ <;> rw [State.setcc_cond, condOf_eq_toNat]
  · rw [if_pos hz]
  · rw [if_neg (by omega), if_neg (by omega)]
  · rw [if_neg (by omega), if_pos hn]

/-- The flag of a value is exactly one of N, Z and P (10_state.md R28). -/
theorem condOf_oneFlag (v : Word) : condOf v = 0b100 ∨ condOf v = 0b010 ∨ condOf v = 0b001 := by
  unfold condOf
  split_ifs
  · exact .inr (.inl rfl)
  · exact .inl rfl
  · exact .inr (.inr rfl)

/-! ## Meanings that neither read nor write `cond` -/

/-- A meaning that neither reads nor writes `cond`: it does the same under any other `cond`, and leaves that one. -/
def IgnoresCond (f : State → Result) : Prop :=
  ∀ (s : State) (c : BitVec 3), f (s.setCond c) = mapNext (fun t => t.setCond c) (f s)

theorem State.inTake_setCond (s : State) (c : BitVec 3) :
    (s.setCond c).inTake = s.inTake.map fun r => (r.1, r.2.setCond c) := by
  rcases s.inTake_cases with ⟨hq, e⟩ | ⟨u, q, hq, e⟩ <;> rw [e]
  · exact State.inTake_nil (s := s.setCond c) hq
  · exact State.inTake_cons (s := s.setCond c) hq

theorem State.conPuts_setCond (s : State) (bs : List Byte) (c : BitVec 3) :
    (s.setCond c).conPuts bs = (s.conPuts bs).setCond c := by
  rw [State.conPuts_eq, State.conPuts_eq]
  rfl

theorem stiFrom_ignoresCond (sr : Reg) (a : Word) : IgnoresCond (stiFrom sr a) := by
  intro s c
  simp only [stiFrom, State.memRead_setCond]
  cases s.memRead a with
  | none => rfl
  | some r => rfl

theorem putsLoop_setCond (c : BitVec 3) : ∀ (fuel : Nat) (a : Word) (s : State),
    putsLoop fuel a (s.setCond c) = (putsLoop fuel a s).setCond c
  | 0, _, _ => rfl
  | fuel + 1, a, s => by
    simp only [putsLoop, State.memRead_setCond]
    cases s.memRead a with
    | none => rfl
    | some r =>
      simp only [Option.map_some]
      split_ifs
      · rfl
      · exact putsLoop_setCond c fuel (a + 1) (r.2.conPut (lowByte r.1))

theorem getcService_ignoresCond : IgnoresCond getcService := by
  intro s c
  simp only [getcService, State.inTake_setCond]
  cases s.inTake with
  | none => rfl
  | some r => rfl

theorem inTakeAndEcho_ignoresCond : IgnoresCond inTakeAndEcho := by
  intro s c
  simp only [inTakeAndEcho, State.inTake_setCond]
  cases s.inTake with
  | none => rfl
  | some r => rfl

theorem putsService_ignoresCond : IgnoresCond putsService := fun s c =>
  congrArg Host.Outcome.next (putsLoop_setCond c (putsFuel s) (s.reg .r0) s)

theorem inService_ignoresCond : IgnoresCond inService := by
  intro s c
  simp only [inService, State.setCond_config, State.conPuts_setCond]
  exact inTakeAndEcho_ignoresCond _ c

theorem haltService_ignoresCond : IgnoresCond haltService := by
  intro s c
  simp only [haltService, State.setCond_config, State.conPuts_setCond]
  rfl

/-- No trap service reads or writes `cond` (10_state.md R27, R28). -/
theorem runService_ignoresCond (v : Service) : IgnoresCond (runService v) := by
  cases v with
  | getc => exact getcService_ignoresCond
  | out => exact fun _ _ => rfl
  | puts => exact putsService_ignoresCond
  | inp => exact inService_ignoresCond
  | halt => exact haltService_ignoresCond
  | empty => exact fun _ _ => rfl

/-- An instruction that sets no flags and is not BR neither reads nor writes `cond`. -/
theorem exec_ignoresCond {i : Instr} (hd : i.flagDest = none) (hbr : ∀ nzp off9, i ≠ .br nzp off9) :
    IgnoresCond (exec i) := by
  cases i with
  | br nzp off9 => exact absurd rfl (hbr nzp off9)
  | st | str | jsr | jsrr | jmp | rti | reserved => exact fun _ _ => rfl
  | sti sr off9 => exact fun s => stiFrom_ignoresCond sr (s.pcRel9 off9) s
  | trap vect8 ign => exact fun s => runService_ignoresCond (trapTable vect8) s.trapEntry
  | addReg | addImm | andReg | andImm | not | ld | ldr | ldi | lea => cases hd

/-! ## Flag-setting meanings -/

/-- What a flag-setting meaning does, under the state's own `cond` and under any other: it holds, with `cond` as it
was, or it ends with the one write of `dr` and the flags, which hides the `cond` it started with. -/
def HoldsOrWritesDest (dr : Reg) (f : State → Result) (s : State) : Prop :=
  (∃ (u : State) (k : Hold), f s = .next (u.holdAt k) ∧ ∀ c, f (s.setCond c) = .next ((u.holdAt k).setCond c)) ∨
  ∃ (u : State) (v : Word), f s = .next (u.writeDest dr v) ∧ ∀ c, f (s.setCond c) = .next (u.writeDest dr v)

/-- A meaning that reads no memory: its result is one value, computed without `cond`. -/
theorem holdsOrWritesDest_of_value {dr : Reg} {f : State → Result} (value : State → Word)
    (hf : ∀ s, f s = .next (s.writeDest dr (value s))) {s : State} (hv : ∀ c, value (s.setCond c) = value s) :
    HoldsOrWritesDest dr f s :=
  .inr ⟨s, value s, hf s, fun c => by rw [hf, hv]; rfl⟩

theorem loadFrom_holdsOrWritesDest (dr : Reg) (a : Word) (s : State) : HoldsOrWritesDest dr (loadFrom dr a) s := by
  unfold HoldsOrWritesDest
  simp only [loadFrom, State.memRead_setCond]
  cases s.memRead a with
  | none => exact .inl ⟨s, .load dr, rfl, fun _ => rfl⟩
  | some r => exact .inr ⟨r.2, r.1, rfl, fun _ => rfl⟩

theorem ldiFrom_holdsOrWritesDest (dr : Reg) (a : Word) (s : State) : HoldsOrWritesDest dr (ldiFrom dr a) s := by
  unfold HoldsOrWritesDest
  simp only [ldiFrom, State.memRead_setCond]
  cases s.memRead a with
  | none => exact .inl ⟨s, .ldiPointer dr, rfl, fun _ => rfl⟩
  | some r => exact loadFrom_holdsOrWritesDest dr r.1 r.2

/-- The seven flag-setting instructions (10_state.md R27). -/
theorem exec_holdsOrWritesDest {i : Instr} {dr : Reg} (hd : i.flagDest = some dr) (s : State) :
    HoldsOrWritesDest dr (exec i) s := by
  cases i with
  | addReg | addImm | andReg | andImm | not | lea =>
    cases hd
    exact holdsOrWritesDest_of_value _ (fun _ => rfl) fun _ => rfl
  | ld _ off9 => cases hd; exact loadFrom_holdsOrWritesDest dr (s.pcRel9 off9) s
  | ldr _ base off6 => cases hd; exact loadFrom_holdsOrWritesDest dr (s.base6 base off6) s
  | ldi _ off9 => cases hd; exact ldiFrom_holdsOrWritesDest dr (s.pcRel9 off9) s
  | br | st | str | sti | jsr | jsrr | jmp | rti | reserved | trap => cases hd

/-- Settles O54: a meaning that sets no flags carries any `cond` through untouched; one that sets them holds with
`cond` as it was, or ends with `writeDest`, whose flag is `condOf` of the register written. -/
theorem onlyBranchReadsCond : Obligations.OnlyBranchReadsCond := by
  unfold Obligations.OnlyBranchReadsCond
  intro i s t c ht
  cases hd : i.flagDest with
  | none =>
    refine ⟨fun hbr => ⟨t.setCond c, ?_, .inl rfl⟩, nofun⟩
    rw [exec_ignoresCond hd hbr s c, ht]
    rfl
  | some dr =>
    rcases exec_holdsOrWritesDest hd s with ⟨u, k, e, e'⟩ | ⟨u, v, e, e'⟩ <;> cases ht.symm.trans e
    · exact ⟨fun _ => ⟨_, e' c, .inl rfl⟩, fun _ _ _ hheld => nomatch hheld⟩
    · refine ⟨fun _ => ⟨_, e' c, .inr ⟨rfl, dr, rfl⟩⟩, ?_⟩
      rintro _ ⟨⟩ _ _
      rw [State.writeDest_cond, State.writeDest_reg_same]
      exact ⟨condOf_oneFlag v, flagOf_condOf v⟩

end Sys2Proof.Machine
end

section
/-! PROOF. The statements of 20_memory.md: a write to memory and the read that comes after it (R57). -/

namespace Sys2Proof.Machine

/-- A read of a cell just written, at an address that is not intercepted: the value written, and no other effect. -/
theorem State.memRead_memWrite_same {s : State} (hwf : s.mem.wf = true) {a : Word} (v : Word)
    (hkbsr : a ≠ s.config.kbsrAddress) (hkbdr : a ≠ s.config.kbdrAddress) :
    (s.memWrite a v).memRead a = some (v, s.memWrite a v) := by
  have hread : (s.memWrite a v).memRead a = some ((s.memWrite a v).cell a, s.memWrite a v) :=
    State.memRead_plain hkbsr hkbdr
  rw [hread, State.cell_memWrite_same hwf]

/-- Settles O13: `memWrite_stored` is the write with its frame, `memRead_memWrite_same` the read after it. -/
theorem writeThenRead : Obligations.WriteThenRead := by
  unfold Obligations.WriteThenRead
  intro s a v hwf
  exact ⟨State.memWrite_stored hwf a v, State.memRead_memWrite_same hwf v⟩

end Sys2Proof.Machine
end

section
/-! PROOF. The statements of 30_encoding.md: sign extension of an `n`-bit field value (R82). -/

namespace Sys2Proof.Machine

/-- The top bit of an `n`-bit field value says whether the value reaches `2^(n-1)`. -/
theorem topBit_eq_decide {n : Nat} {f : Word} (hn : 1 ≤ n) (hf : f.toNat < 2 ^ n) :
    f.getLsbD (n - 1) = decide (2 ^ (n - 1) ≤ f.toNat) := by
  rw [← BitVec.testBit_toNat]
  by_cases hle : 2 ^ (n - 1) ≤ f.toNat
  · rw [decide_eq_true hle]
    exact Nat.testBit_of_two_pow_le_and_two_pow_add_one_gt hle (by rwa [Nat.sub_add_cancel hn])
  · rw [decide_eq_false hle]
    exact Nat.testBit_lt_two_pow (Nat.lt_of_not_le hle)

/-- The word with a 1 in every place from `n` up is `-2^n`. -/
theorem higherBits_toNat {n : Nat} (hn : n ≤ 15) : ((0xFFFF : Word) <<< n).toNat = 2 ^ 16 - 2 ^ n := by
  have hpos : 0 < 2 ^ n := Nat.two_pow_pos n
  have hlt : 2 ^ n < 2 ^ 16 := Nat.pow_lt_pow_right (by decide) (by omega)
  have hneg : (0xFFFF : Word) <<< n = -BitVec.twoPow 16 n := by
    rw [BitVec.shiftLeft_eq_mul_twoPow, show (0xFFFF : Word) = -1#16 from rfl, BitVec.neg_mul, BitVec.one_mul]
  rw [hneg, BitVec.toNat_neg, BitVec.toNat_twoPow, Nat.mod_eq_of_lt hlt, Nat.mod_eq_of_lt (by omega)]

/-- A field value shares no bit with the places above it, so OR with those adds them. -/
theorem or_higherBits_toNat {n : Nat} {f : Word} (hn : n ≤ 15) (hf : f.toNat < 2 ^ n) :
    (f ||| ((0xFFFF : Word) <<< n)).toNat = f.toNat + 2 ^ 16 - 2 ^ n := by
  have hle : 2 ^ n ≤ 2 ^ 16 := Nat.pow_le_pow_right (by decide) (by omega)
  have hmul : 2 ^ n * (2 ^ (16 - n) - 1) = 2 ^ 16 - 2 ^ n := by
    rw [Nat.mul_sub, ← Nat.pow_add, Nat.add_sub_of_le (by omega), Nat.mul_one]
  rw [BitVec.toNat_or, higherBits_toNat hn, ← hmul, Nat.or_comm, ← Nat.two_pow_add_eq_or_of_lt hf, hmul]
  omega

/-- `sextN` of a field value whose top bit is 0 (R82, first case). -/
theorem sextN_of_topBit_false {n : Nat} {f : Word} (h : f.getLsbD (n - 1) = false) : sextN n f = f := by
  rw [sextN, h, if_neg Bool.false_ne_true]

/-- `sextN` of a field value whose top bit is 1 (R82, second case). -/
theorem sextN_of_topBit_true {n : Nat} {f : Word} (h : f.getLsbD (n - 1) = true) :
    sextN n f = f ||| ((0xFFFF : Word) <<< n) := by
  rw [sextN, if_pos h]

/-- Settles O6: the top bit compares `f` with `2^(n-1)`, and the two ranges of `sextN` lie on either side of `2^15`. -/
theorem signExtensionOfField : Obligations.SignExtensionOfField := by
  unfold Obligations.SignExtensionOfField
  intro n f hn hn15 hf
  have htop := topBit_eq_decide hn hf
  have hhalf : 2 ^ n = 2 * 2 ^ (n - 1) := by rw [← Nat.pow_succ', Nat.succ_eq_add_one, Nat.sub_add_cancel hn]
  have hle : 2 ^ n ≤ 2 ^ 15 := Nat.pow_le_pow_right (by decide) hn15
  refine ⟨fun h0 => ?_, fun h1 => ?_⟩
  · have hlow : f.toNat < 2 ^ (n - 1) := Nat.lt_of_not_le (of_decide_eq_false (htop.symm.trans h0))
    have hsext := sextN_of_topBit_false h0
    refine ⟨hlow, hsext, ?_⟩
    rw [hsext, BitVec.toInt_eq_toNat_of_lt (by omega)]
  · have hhigh : 2 ^ (n - 1) ≤ f.toNat := of_decide_eq_true (htop.symm.trans h1)
    have hsext := sextN_of_topBit_true h1
    have hnat : (sextN n f).toNat = f.toNat + 2 ^ 16 - 2 ^ n := by rw [hsext, or_higherBits_toNat hn15 hf]
    refine ⟨hhigh, hsext, hnat, ?_⟩
    rw [BitVec.toInt_eq_toNat_cond, hnat, if_neg (by omega), Nat.cast_sub (by omega)]
    push_cast
    ring

end Sys2Proof.Machine
end

section
/-! PROOF. The statements of 40_instruction_cycle.md: the two transitions to HALTED (R126). -/

namespace Sys2Proof.Machine

/-! ## Meanings that leave the run flag -/

/-- A meaning that leaves the run flag as it was, whether it completes or holds. -/
def KeepsRunning (f : State → Result) : Prop :=
  ∀ s t : State, f s = .next t → t.running = s.running

theorem State.memRead_running {s t : State} {a v : Word} (h : s.memRead a = some (v, t)) : t.running = s.running := by
  obtain ⟨_, _, _, rfl⟩ := State.memRead_some h
  rfl

theorem loadFrom_keepsRunning (dr : Reg) (a : Word) : KeepsRunning (loadFrom dr a) := by
  intro s t ht
  rcases loadFrom_cases dr a s with ⟨_, e⟩ | ⟨v, u, hread, e⟩ <;> cases ht.symm.trans e
  · rfl
  · rw [State.writeDest_running, State.memRead_running hread]

theorem ldiFrom_keepsRunning (dr : Reg) (a : Word) : KeepsRunning (ldiFrom dr a) := by
  intro s t ht
  rcases ldiFrom_cases dr a s with ⟨_, e⟩ | ⟨p, u, hread, e⟩
  · cases ht.symm.trans e
    rfl
  · exact (loadFrom_keepsRunning dr p u t (e.symm.trans ht)).trans (State.memRead_running hread)

theorem stiFrom_keepsRunning (sr : Reg) (a : Word) : KeepsRunning (stiFrom sr a) := by
  intro s t ht
  rcases stiFrom_cases sr a s with ⟨_, e⟩ | ⟨p, u, hread, e⟩ <;> cases ht.symm.trans e
  · rfl
  · rw [State.memWrite_running, State.memRead_running hread]

theorem putsFrom_keepsRunning (a : Word) : KeepsRunning (putsFrom a) := by
  rintro s _ ⟨⟩
  obtain ⟨k, q, o, h, e, _⟩ := putsLoop_frame (putsFuel s) a s
  rw [e]
  rfl

theorem getcService_keepsRunning : KeepsRunning getcService := by
  intro s t ht
  rcases getcService_cases s with ⟨_, e⟩ | ⟨u, q, _, e⟩ <;> cases ht.symm.trans e <;> rfl

theorem inTakeAndEcho_keepsRunning : KeepsRunning inTakeAndEcho := by
  intro s t ht
  rcases inTakeAndEcho_cases s with ⟨_, e⟩ | ⟨u, q, _, e⟩ <;> cases ht.symm.trans e <;> rfl

theorem inService_keepsRunning : KeepsRunning inService := by
  intro s t ht
  rw [inTakeAndEcho_keepsRunning _ t ht, State.conPuts_eq]
  rfl

/-- Every service but HALT leaves the run flag (44_trap_and_system.md R220). -/
theorem runService_keepsRunning {v : Service} (hv : v ≠ .halt) : KeepsRunning (runService v) := by
  cases v with
  | getc => exact getcService_keepsRunning
  | out | empty => rintro s _ ⟨⟩; rfl
  | puts => exact fun s => putsFrom_keepsRunning (s.reg .r0) s
  | inp => exact inService_keepsRunning
  | halt => exact absurd rfl hv

theorem trapTable_ne_halt {v : Byte} (hv : v ≠ 0x25) : trapTable v ≠ .halt := by
  rcases trapTable_cases v with ⟨_, e⟩ | ⟨_, e⟩ | ⟨_, e⟩ | ⟨_, e⟩ | ⟨h, _⟩ | ⟨_, _, _, _, _, e⟩
  case inr.inr.inr.inr.inl => exact absurd h hv
  all_goals
    rw [e]
    nofun

/-- Every instruction but TRAP x25 leaves the run flag. -/
theorem exec_keepsRunning {i : Instr} (hi : ∀ ign, i ≠ .trap 0x25 ign) : KeepsRunning (exec i) := by
  cases i with
  | br nzp off9 =>
    rintro s _ ⟨⟩
    split_ifs <;> rfl
  | addReg | addImm | andReg | andImm | not | lea | st | str | jsr | jsrr | jmp | rti | reserved =>
    rintro s _ ⟨⟩
    rfl
  | ld dr off9 => exact fun s => loadFrom_keepsRunning dr (s.pcRel9 off9) s
  | ldr dr base off6 => exact fun s => loadFrom_keepsRunning dr (s.base6 base off6) s
  | ldi dr off9 => exact fun s => ldiFrom_keepsRunning dr (s.pcRel9 off9) s
  | sti sr off9 => exact fun s => stiFrom_keepsRunning sr (s.pcRel9 off9) s
  | trap vect8 ign =>
    have hv : vect8 ≠ 0x25 := fun e => hi ign (by rw [e])
    exact fun s => runService_keepsRunning (trapTable_ne_halt hv) s.trapEntry

/-- TRAP x25 clears the run flag (44_trap_and_system.md R220). -/
theorem exec_halt_running {ign : BitVec 4} {s t : State} (ht : exec (.trap 0x25 ign) s = .next t) :
    t.running = false := by
  cases ht
  rfl

/-! ## The fetch -/

/-- From a running boundary, a fetch and its instruction end HALTED exactly when the word fetched is TRAP x25. -/
theorem fetchExecute_halts_iff {s t : State} (hrun : s.running = true) (ht : fetchExecute s = .next t) :
    t.running = false ↔ ∃ ir u ign, s.memRead s.pc = some (ir, u) ∧ decode ir = .trap 0x25 ign := by
  rcases fetchExecute_cases s with ⟨hread, e⟩ | ⟨ir, u, hread, e⟩
  · cases ht.symm.trans e
    simp [hread, hrun]
  · rw [e] at ht
    constructor
    · intro hhalt
      by_contra hno
      have hi : ∀ ign, decode ir ≠ .trap 0x25 ign := fun ign hd => hno ⟨ir, u, ign, hread, hd⟩
      have hkeep : t.running = u.running := exec_keepsRunning hi (u.setPc (s.pc + 1)) t ht
      rw [hkeep, State.memRead_running hread, hrun] at hhalt
      cases hhalt
    · rintro ⟨ir', u', ign, hread', hd⟩
      cases hread.symm.trans hread'
      rw [hd] at ht
      exact exec_halt_running ht

/-- The word a read of KBDR gives (20_memory.md R54) has bits 15:8 clear, so as an instruction it is a BR that tests
no flag. -/
theorem decode_zext16 (u : Byte) : decode (zext16 u) = .br 0b000 (u.setWidth 9) := by
  have hop : slice (zext16 u) 12 4 = 0b0000 := by
    apply BitVec.eq_of_getLsbD_eq
    intro k hk
    simp [slice, show 8 ≤ 12 + k by omega]
  have hnzp : slice (zext16 u) 9 3 = 0b000 := by
    apply BitVec.eq_of_getLsbD_eq
    intro k hk
    simp [slice, show 8 ≤ 9 + k by omega]
  have hoff : slice (zext16 u) 0 9 = u.setWidth 9 := by
    apply BitVec.eq_of_getLsbD_eq
    intro k hk
    simp [slice, show k < 16 by omega]
  simp only [decode, hop, hnzp, hoff]
  rfl

/-- A fetch at KBDR, where the word read is an input unit and so no TRAP, leaves the run flag. -/
theorem fetchExecute_kbdr_running {s t : State} (hlegal : s.config.legal = true) (hpc : s.pc = s.config.kbdrAddress)
    (ht : fetchExecute s = .next t) : t.running = s.running := by
  have hne : s.pc ≠ s.config.kbsrAddress := by
    simp only [Config.legal, Bool.and_eq_true, bne_iff_ne] at hlegal
    exact fun e => hlegal.1 (e.symm.trans hpc)
  cases hq : s.inq with
  | nil =>
    simp only [fetchExecute, State.memRead_kbdr_empty hne hpc hq] at ht
    cases ht
    rfl
  | cons u q =>
    simp only [fetchExecute, State.memRead_kbdr_unit hne hpc hq, decode_zext16] at ht
    simpa using exec_keepsRunning (i := .br 0b000 (u.setWidth 9)) nofun _ t ht

/-! ## The step -/

/-- A held cycle never halts the core (40_instruction_cycle.md R125): a fetch holds at KBDR alone, where no TRAP is
read, and every other hold point lies inside an instruction that is not HALT. -/
theorem resume_running {s t : State} {h : Hold} (hinv : s.Inv) (hh : s.hold = some h)
    (ht : resume h (s.setHold none) = .next t) : t.running = s.running := by
  cases h with
  | fetch =>
    have hlegal := hinv.hold
    simp only [State.holdLegal, hh, Bool.and_eq_true, beq_iff_eq] at hlegal
    exact fetchExecute_kbdr_running (s := s.setHold none) hinv.config hlegal.2 ht
  | load dr => exact loadFrom_keepsRunning dr _ (s.setHold none) t ht
  | ldiPointer dr => exact ldiFrom_keepsRunning dr _ (s.setHold none) t ht
  | stiPointer sr => exact stiFrom_keepsRunning sr _ (s.setHold none) t ht
  | puts a => exact putsFrom_keepsRunning a (s.setHold none) t ht
  | getc => exact getcService_keepsRunning (s.setHold none) t ht
  | inTake => exact inTakeAndEcho_keepsRunning (s.setHold none) t ht

/-- Settles O46: by what the step does, a held cycle keeps the run flag, a stop request clears it, and an instruction
clears it exactly when it is TRAP x25. -/
theorem onlyHaltAndStopEndTheRun : Obligations.OnlyHaltAndStopEndTheRun := by
  unfold Obligations.OnlyHaltAndStopEndTheRun
  refine ⟨fun _ _ _ => ⟨rfl, rfl⟩, fun s t hinv hrun ht => ?_⟩
  rcases step_cases s with ⟨h, hh, e⟩ | ⟨hh, _, hstop, e⟩ | ⟨hh, _, hstop, e⟩ | ⟨_, hhalted, _⟩
  · have hkeep := resume_running hinv hh (e.symm.trans ht)
    simp [hkeep, hrun, hh]
  · cases ht.symm.trans e
    simp [hh, hstop]
  · rw [fetchExecute_halts_iff hrun (e.symm.trans ht)]
    simp [hh, hstop]
  · cases hrun.symm.trans hhalted

end Sys2Proof.Machine
end

section
/-! PROOF. The statements of 41_operate.md: ADD, AND and NOT, each from its word to the state it leaves (R140 to R148).
What the destination write changes and leaves is `State.writeDest_wrote`; here are the decoding of the words and the
arithmetic of the results. -/

namespace Sys2Proof.Machine

/-! ## The layout of an operate word -/

/-- What the words of ADD, AND and NOT share: opcode, `DR`, the first source, and six bits `low` for the rest. -/
def operateWord (o : Opcode) (dr sr : Reg) (low : BitVec 6) : Word := o.bits ++ dr.bits ++ sr.bits ++ low

section operateWord
variable (o : Opcode) (dr sr : Reg) (low : BitVec 6)

@[simp] theorem opcode_operateWord : Opcode.ofBits (slice (operateWord o dr sr low) 12 4) = o :=
  opcode_eq fun i hi => by
    simp only [operateWord, BitVec.getLsbD_append]
    interval_cases i <;> simp

@[simp] theorem regAt_operateWord_dr : regAt (operateWord o dr sr low) 9 = dr := regAt_eq fun i hi => by
  simp only [operateWord, BitVec.getLsbD_append]
  interval_cases i <;> simp

@[simp] theorem regAt_operateWord_sr : regAt (operateWord o dr sr low) 6 = sr := regAt_eq fun i hi => by
  simp only [operateWord, BitVec.getLsbD_append]
  interval_cases i <;> simp

theorem operateWord_getLsbD_low {k : Nat} (hk : k < 6) : (operateWord o dr sr low).getLsbD k = low.getLsbD k := by
  simp only [operateWord, BitVec.getLsbD_append, hk, if_true]

/-- A field that lies in the low six bits is read there. -/
theorem slice_operateWord_low {lo len : Nat} (h : lo + len ≤ 6) :
    slice (operateWord o dr sr low) lo len = low.extractLsb' lo len := slice_eq fun i hi => by
  rw [operateWord_getLsbD_low o dr sr low (by omega), BitVec.getLsbD_extractLsb', decide_eq_true hi, Bool.true_and]

/-- The first register of the low six bits. -/
theorem regAt_operateWord_low : regAt (operateWord o dr sr low) 0 = Reg.ofBits (low.extractLsb' 0 3) := by
  rw [regAt, slice_operateWord_low o dr sr low (by decide)]

/-- The decoder on an ADD word: bit 5 chooses the form (30_encoding.md R85, R86). -/
theorem decode_operateWord_add : decode (operateWord .add dr sr low) =
    if low.getLsbD 5 then .addImm dr sr (low.extractLsb' 0 5)
    else .addReg dr sr (Reg.ofBits (low.extractLsb' 0 3)) (low.extractLsb' 3 2) := by
  simp (disch := decide) only [decode, opcode_operateWord, regAt_operateWord_dr, regAt_operateWord_sr,
    regAt_operateWord_low, operateWord_getLsbD_low, slice_operateWord_low]

/-- The decoder on an AND word, of the same two forms. -/
theorem decode_operateWord_and : decode (operateWord .and dr sr low) =
    if low.getLsbD 5 then .andImm dr sr (low.extractLsb' 0 5)
    else .andReg dr sr (Reg.ofBits (low.extractLsb' 0 3)) (low.extractLsb' 3 2) := by
  simp (disch := decide) only [decode, opcode_operateWord, regAt_operateWord_dr, regAt_operateWord_sr,
    regAt_operateWord_low, operateWord_getLsbD_low, slice_operateWord_low]

/-- The decoder on a NOT word: the low six bits are ignored, whatever they are (30_encoding.md R87, R97). -/
theorem decode_operateWord_not : decode (operateWord .not dr sr low) = .not dr sr low := by
  simp [decode, slice_operateWord_low]

end operateWord

/-- The low six bits of the register form: bit 5 clear, two ignored bits, `SR2` (30_encoding.md R85). -/
def registerOperand (sr2 : Reg) (ign : BitVec 2) : BitVec 6 := 0b0#1 ++ ign ++ sr2.bits

/-- The low six bits of the immediate form: bit 5 set, the immediate (30_encoding.md R86). -/
def immediateOperand (imm5 : BitVec 5) : BitVec 6 := 0b1#1 ++ imm5

theorem registerOperand_mode (sr2 : Reg) (ign : BitVec 2) : (registerOperand sr2 ign).getLsbD 5 = false := by
  simp only [registerOperand, BitVec.getLsbD_append]
  rfl

theorem registerOperand_sr2 (sr2 : Reg) (ign : BitVec 2) :
    Reg.ofBits ((registerOperand sr2 ign).extractLsb' 0 3) = sr2 :=
  (congrArg Reg.ofBits BitVec.extractLsb'_append_eq_right).trans sr2.ofBits_bits

theorem registerOperand_ign (sr2 : Reg) (ign : BitVec 2) : (registerOperand sr2 ign).extractLsb' 3 2 = ign :=
  (BitVec.extractLsb'_append_eq_of_le (by decide)).trans BitVec.extractLsb'_append_eq_right

theorem immediateOperand_mode (imm5 : BitVec 5) : (immediateOperand imm5).getLsbD 5 = true := by
  simp only [immediateOperand, BitVec.getLsbD_append]
  rfl

theorem immediateOperand_imm5 (imm5 : BitVec 5) : (immediateOperand imm5).extractLsb' 0 5 = imm5 :=
  BitVec.extractLsb'_append_eq_right

theorem registerWord_eq (o : Opcode) (dr sr1 sr2 : Reg) (ign : BitVec 2) :
    o.bits ++ dr.bits ++ sr1.bits ++ 0b0#1 ++ ign ++ sr2.bits = operateWord o dr sr1 (registerOperand sr2 ign) := by
  rw [BitVec.append_assoc (x₃ := ign)]
  exact BitVec.append_assoc

theorem immediateWord_eq (o : Opcode) (dr sr1 : Reg) (imm5 : BitVec 5) :
    o.bits ++ dr.bits ++ sr1.bits ++ 0b1#1 ++ imm5 = operateWord o dr sr1 (immediateOperand imm5) :=
  BitVec.append_assoc

/-! ## ADD, AND and NOT -/

/-- The sum of the unsigned values, modulo 2^16 (41_operate.md R150). -/
theorem ofNat_toNat_add_mod (a b : Word) : BitVec.ofNat 16 ((a.toNat + b.toNat) % 65536) = a + b := by
  rw [← BitVec.toNat_add, BitVec.ofNat_toNat, BitVec.setWidth_eq]

/-- The sum of the signed values, modulo 2^16: the same bits. -/
theorem ofInt_toInt_add_imm5 (a : Word) (imm5 : BitVec 5) :
    BitVec.ofInt 16 (a.toInt + imm5.toInt) = a + immOperand imm5 := by
  rw [BitVec.ofInt_add, BitVec.ofInt_toInt]
  rfl

/-- The complement as a difference from `0xFFFF`. -/
theorem ofNat_sub_toNat (a : Word) : BitVec.ofNat 16 (0xFFFF - a.toNat) = ~~~a := by
  have hnot : 0xFFFF - a.toNat = (~~~a).toNat := by simp
  rw [hnot, BitVec.ofNat_toNat, BitVec.setWidth_eq]

/-- The extended immediate bit by bit: from bit 4 up, every bit is the immediate's sign. -/
theorem immOperand_getLsbD (imm5 : BitVec 5) {k : Nat} (hk : k < 16) :
    (immOperand imm5).getLsbD k = imm5.getLsbD (min k 4) := by
  simp only [immOperand, sext, BitVec.getLsbD_signExtend, hk, decide_true, Bool.true_and, BitVec.msb_eq_getLsbD_last]
  split_ifs with hlow
  · rw [Nat.min_eq_left (by omega)]
  · rw [Nat.min_eq_right (by omega)]

/-- Settles O15: the state is one `writeDest`, of the sum of the unsigned values modulo 2^16. -/
theorem addRegisterResult : Obligations.AddRegisterResult := by
  unfold Obligations.AddRegisterResult
  intro dr sr1 sr2 ign s
  refine ⟨?_, _, rfl, ?_⟩
  · rw [show (0b0001#4 : BitVec 4) = Opcode.add.bits from rfl, registerWord_eq, decode_operateWord_add,
      registerOperand_mode, if_neg Bool.false_ne_true, registerOperand_sr2, registerOperand_ign]
  · rw [ofNat_toNat_add_mod]
    exact s.writeDest_wrote dr _

/-- Settles O16: the state is one `writeDest`, and sign extension keeps the immediate's signed value. -/
theorem addImmediateResult : Obligations.AddImmediateResult := by
  unfold Obligations.AddImmediateResult
  intro dr sr1 imm5 s
  refine ⟨?_, _, rfl, ?_⟩
  · rw [show (0b0001#4 : BitVec 4) = Opcode.add.bits from rfl, immediateWord_eq, decode_operateWord_add,
      immediateOperand_mode, if_pos rfl, immediateOperand_imm5]
  · rw [ofInt_toInt_add_imm5]
    exact s.writeDest_wrote dr _

/-- Settles O17: the value written is the AND, which is taken bit by bit. -/
theorem andRegisterResult : Obligations.AndRegisterResult := by
  unfold Obligations.AndRegisterResult
  intro dr sr1 sr2 ign s
  refine ⟨?_, _, _, rfl, s.writeDest_wrote dr _, fun k => BitVec.getLsbD_and⟩
  rw [show (0b0101#4 : BitVec 4) = Opcode.and.bits from rfl, registerWord_eq, decode_operateWord_and,
    registerOperand_mode, if_neg Bool.false_ne_true, registerOperand_sr2, registerOperand_ign]

/-- Settles O18: as in O17, with the bits of the extended immediate. -/
theorem andImmediateResult : Obligations.AndImmediateResult := by
  unfold Obligations.AndImmediateResult
  intro dr sr1 imm5 s
  refine ⟨?_, _, _, rfl, s.writeDest_wrote dr _, fun k hk => ?_⟩
  · rw [show (0b0101#4 : BitVec 4) = Opcode.and.bits from rfl, immediateWord_eq, decode_operateWord_and,
      immediateOperand_mode, if_pos rfl, immediateOperand_imm5]
  · rw [BitVec.getLsbD_and, immOperand_getLsbD imm5 hk]

/-- Settles O19: the value written is the complement, which is the difference from `0xFFFF`. -/
theorem notResult : Obligations.NotResult := by
  unfold Obligations.NotResult
  intro dr sr ign s
  refine ⟨decode_operateWord_not dr sr ign, _, rfl, ?_⟩
  rw [ofNat_sub_toNat]
  exact s.writeDest_wrote dr _

end Sys2Proof.Machine
end

section
/-! PROOF. The statements of 42_data_movement.md: LEA, from its word to the state it leaves (R166), and what loads, LEA
and stores do to the flags and the registers (R176). -/

namespace Sys2Proof.Machine

/-! ## Flags of loads and stores -/

/-- A flag-setting instruction that completes ends with its one write of `dr` and the flags: the other outcome of
`exec_holdsOrWritesDest` leaves a hold. -/
theorem exec_writesDest_of_completes {i : Instr} {dr : Reg} {s t : State} (hd : i.flagDest = some dr)
    (ht : exec i s = .next t) (hdone : t.hold = none) : ∃ (u : State) (v : Word), t = u.writeDest dr v := by
  rcases exec_holdsOrWritesDest hd s with ⟨u, k, e, _⟩ | ⟨u, v, e, _⟩ <;> cases ht.symm.trans e
  · cases hdone
  · exact ⟨u, v, rfl⟩

/-- After a flag-setting instruction that completes, the one flag set is that of the register written (10_state.md R27,
R28). -/
theorem exec_flagOf_of_completes {i : Instr} {dr : Reg} {s t : State} (hd : i.flagDest = some dr)
    (ht : exec i s = .next t) (hdone : t.hold = none) :
    FlagOf (t.reg dr) t.cond ∧ (t.cond = 0b100 ∨ t.cond = 0b010 ∨ t.cond = 0b001) := by
  obtain ⟨u, v, rfl⟩ := exec_writesDest_of_completes hd ht hdone
  rw [State.writeDest_reg_same, State.writeDest_cond]
  exact ⟨flagOf_condOf v, condOf_oneFlag v⟩

/-- STI changes no flag and no register, whether its pointer read completes or holds. -/
theorem stiFrom_cond_regs {sr : Reg} {a : Word} {s t : State} (ht : stiFrom sr a s = .next t) :
    t.cond = s.cond ∧ SameRegs s t := by
  rcases stiFrom_cases sr a s with ⟨_, e⟩ | ⟨p, u, hread, e⟩ <;> cases ht.symm.trans e
  · exact ⟨rfl, fun _ => rfl⟩
  · obtain ⟨_, _, _, rfl⟩ := State.memRead_some hread
    exact ⟨rfl, fun _ => rfl⟩

/-- Settles O25: the three loads and LEA are flag-setting, so what completes is one `writeDest`; ST and STR are one
`memWrite`, STI a read and a `memWrite`. -/
theorem dataMovementFlags : Obligations.DataMovementFlags := by
  unfold Obligations.DataMovementFlags
  intro dr base off9 off6 s t
  refine ⟨fun _ hdone => ?_, ?_⟩
  · rintro (hld | hldi | hldr | hlea)
    · exact exec_flagOf_of_completes rfl hld hdone
    · exact exec_flagOf_of_completes rfl hldi hdone
    · exact exec_flagOf_of_completes rfl hldr hdone
    · exact exec_flagOf_of_completes rfl hlea hdone
  · rintro (hst | hsti | hstr)
    · cases hst
      exact ⟨rfl, fun _ => rfl⟩
    · exact stiFrom_cond_regs hsti
    · cases hstr
      exact ⟨rfl, fun _ => rfl⟩

/-! ## LEA -/

/-- The PC-relative address as the unsigned pc plus the signed offset, modulo 2^16 (42_data_movement.md R180). -/
theorem State.ofInt_pc_add_off9 (s : State) (off9 : BitVec 9) :
    BitVec.ofInt 16 ((s.pc.toNat : Int) + off9.toInt) = s.pcRel9 off9 := by
  rw [BitVec.ofInt_add, BitVec.ofInt_natCast, BitVec.ofNat_toNat, BitVec.setWidth_eq]
  rfl

/-- What the words of LD, ST, LDI, STI and LEA share: opcode, a register, and the pc offset (30_encoding.md R88). -/
def pcRelWord (o : Opcode) (r : Reg) (off9 : BitVec 9) : Word := o.bits ++ r.bits ++ off9

section pcRelWord
variable (o : Opcode) (r : Reg) (off9 : BitVec 9)

@[simp] theorem opcode_pcRelWord : Opcode.ofBits (slice (pcRelWord o r off9) 12 4) = o := opcode_eq fun i hi => by
  simp only [pcRelWord, BitVec.getLsbD_append]
  interval_cases i <;> simp

@[simp] theorem regAt_pcRelWord : regAt (pcRelWord o r off9) 9 = r := regAt_eq fun i hi => by
  simp only [pcRelWord, BitVec.getLsbD_append]
  interval_cases i <;> simp

@[simp] theorem slice_pcRelWord_off9 : slice (pcRelWord o r off9) 0 9 = off9 := BitVec.extractLsb'_append_eq_right

/-- The decoder on a LEA word. -/
theorem decode_pcRelWord_lea : decode (pcRelWord .loadEffectiveAddress r off9) = .lea r off9 := by
  simp only [decode, opcode_pcRelWord, regAt_pcRelWord, slice_pcRelWord_off9]

end pcRelWord

/-- Settles O20: the state is one `writeDest`, of the PC-relative address. -/
theorem leaResult : Obligations.LeaResult := by
  unfold Obligations.LeaResult
  intro dr off9 s
  refine ⟨decode_pcRelWord_lea dr off9, _, rfl, ?_⟩
  rw [State.ofInt_pc_add_off9]
  exact s.writeDest_wrote dr _

end Sys2Proof.Machine
end

section
/-! PROOF. The statements of 43_control.md: what BR, JMP, JSR and JSRR leave of the flags, the registers and the cells
(R202). -/

namespace Sys2Proof.Machine

/-! ## The two ways to transfer control -/

/-- A write of the pc is a jump. -/
theorem State.setPc_jumped (s : State) (target : Word) : Jumped target s (s.setPc target) :=
  ⟨rfl, fun _ => rfl, rfl, fun _ => rfl, ⟨rfl, rfl, rfl, rfl, rfl, rfl, rfl⟩⟩

/-- A write of the link register, then of the pc, is a call. -/
theorem State.setReg_link_setPc_called (s : State) (target : Word) :
    Called target s ((s.setReg linkReg s.pc).setPc target) :=
  ⟨s.reg_setReg_same linkReg s.pc, rfl, fun r h => s.reg_setReg_other linkReg r s.pc h, rfl, fun _ => rfl,
    ⟨rfl, rfl, rfl, rfl, rfl, rfl, rfl⟩⟩

/-- BR jumps to its target if its test holds, and to where the pc already is if it does not (43_control.md R190). -/
theorem execBr_jumped (nzp : BitVec 3) (off9 : BitVec 9) (s : State) :
    ∃ t, execBr nzp off9 s = .next t ∧ Jumped (if condTest nzp s.cond then s.pcRel9 off9 else s.pc) s t := by
  refine ⟨_, rfl, ?_⟩
  split_ifs
  · exact s.setPc_jumped _
  · exact s.setPc_jumped s.pc

/-! ## Flags, registers and cells -/

/-- Settles O30: BR and JMP are jumps, JSR and JSRR calls, whatever their targets. -/
theorem controlFlagsAndRegisters : Obligations.ControlFlagsAndRegisters := by
  unfold Obligations.ControlFlagsAndRegisters
  intro i s t ht
  constructor
  · intro hjump
    obtain ⟨target, h⟩ : ∃ target, Jumped target s t := by
      rcases hjump with ⟨nzp, off9, rfl⟩ | ⟨base, ignHi, ignLo, rfl⟩
      · obtain ⟨u, hu, h⟩ := execBr_jumped nzp off9 s
        cases ht.symm.trans hu
        exact ⟨_, h⟩
      · cases ht
        exact ⟨_, s.setPc_jumped (s.reg base)⟩
    exact ⟨h.cond, h.regs, h.cells⟩
  · intro hcall
    obtain ⟨target, h⟩ : ∃ target, Called target s t := by
      rcases hcall with ⟨off11, rfl⟩ | ⟨base, ignHi, ignLo, rfl⟩
      · cases ht
        exact ⟨_, s.setReg_link_setPc_called (s.pcRel11 off11)⟩
      · cases ht
        exact ⟨_, s.setReg_link_setPc_called ((s.setReg linkReg s.pc).reg base)⟩
    exact ⟨h.cond, h.link, h.regs, h.cells⟩

end Sys2Proof.Machine
end

section
/-! PROOF. The statements of 30_encoding.md about the decoder and the encoder: the two round trips (R98), the rows of the
opcode table (R97), the assembler (R103 to R105), `extract` and the operands of a decoded word (R80 to R84). -/

namespace Sys2Proof.Machine

/-! ## Slices -/

theorem slice_append_slice {w : Word} {hi lo m n : Nat} (h : hi = lo + m) :
    slice w hi n ++ slice w lo m = slice w lo (n + m) := BitVec.extractLsb'_append_extractLsb'_eq_extractLsb' h

theorem slice_whole (w : Word) : slice w 0 16 = w := BitVec.extractLsb'_eq_self

/-- A slice of one bit is that bit. -/
theorem slice_one (w : Word) (k : Nat) : slice w k 1 = BitVec.ofBool (w.getLsbD k) :=
  slice_eq fun i hi => by
    obtain rfl : i = 0 := by omega
    simp

theorem getLsbD_iff_slice (w : Word) (k : Nat) : w.getLsbD k = true ↔ slice w k 1 = 0b1#1 := by
  rw [slice_one]
  cases w.getLsbD k <;> decide

theorem slice_one_of_clear {w : Word} {k : Nat} (h : ¬ w.getLsbD k = true) : slice w k 1 = 0b0#1 := by
  rw [slice_one, Bool.eq_false_of_not_eq_true h]
  rfl

/-- The opcode field of a word holds the number of the opcode it selects. -/
theorem slice_opcode {w : Word} {o : Opcode} (ho : Opcode.ofBits (slice w 12 4) = o) : slice w 12 4 = o.bits := by
  rw [← ho, Opcode.bits_ofBits]

/-! ## The two round trips -/

/-- The top four bits of an instruction's word are its opcode's number. -/
theorem opcode_encode (i : Instr) : Opcode.ofBits (slice (encode i) 12 4) = i.opcode := by
  cases i <;> simp (disch := decide) only [encode, slice, BitVec.extractLsb'_append_eq_of_le] <;> rfl

/-- Settles O2: the opcode chooses the decoder's arm, bit 5 or bit 11 the form, and every field is read off the
concatenation where `encode` put it. -/
theorem decodeOfEncode : Obligations.DecodeOfEncode := by
  unfold Obligations.DecodeOfEncode
  intro i
  have hop := opcode_encode i
  cases i <;> simp only [decode, hop, Instr.opcode] <;>
    simp (disch := decide) only [getLsbD_iff_slice, regAt, encode, slice, Reg.ofBits_bits,
      BitVec.extractLsb'_append_eq_of_le, BitVec.extractLsb'_append_eq_of_add_le, BitVec.extractLsb'_eq_self,
      Nat.reduceSub, BitVec.reduceEq, if_true, if_false]

/-- Settles O3: the constant bits `encode` writes are the slices of the word that chose the decoder's arm, so the
encoding is the word's adjacent slices put together again. -/
theorem encodeOfDecode : Obligations.EncodeOfDecode := by
  unfold Obligations.EncodeOfDecode
  intro w
  refine Eq.trans ?_ (slice_whole w)
  cases ho : Opcode.ofBits (slice w 12 4) <;> have hop := slice_opcode ho <;>
    simp only [Opcode.bits, BitVec.ofNat_eq_ofNat] at hop <;> simp only [decode, ho]
  case add | and | jumpRegister =>
    split
    · next hform =>
      simp only [encode, regAt, Reg.bits_ofBits, ← hop, ← (getLsbD_iff_slice w _).1 hform]
      simp (disch := decide) only [slice_append_slice]
    · next hform =>
      simp only [encode, regAt, Reg.bits_ofBits, ← hop, ← slice_one_of_clear hform]
      simp (disch := decide) only [slice_append_slice]
  all_goals
    simp only [encode, regAt, Reg.bits_ofBits, ← hop]
    simp (disch := decide) only [slice_append_slice]

/-! ## The opcode table -/

/-- The word of an instruction belongs to the instruction's row. -/
theorem row_has_encode (i : Instr) : i.row.has (encode i) = true := by
  cases i with
  | br => exact Laws.EncodeRow.br _ _
  | addReg => exact Laws.EncodeRow.addReg _ _ _ _
  | addImm => exact Laws.EncodeRow.addImm _ _ _
  | ld => exact Laws.EncodeRow.ld _ _
  | st => exact Laws.EncodeRow.st _ _
  | jsr => exact Laws.EncodeRow.jsr _
  | jsrr => exact Laws.EncodeRow.jsrr _ _ _
  | andReg => exact Laws.EncodeRow.andReg _ _ _ _
  | andImm => exact Laws.EncodeRow.andImm _ _ _
  | ldr => exact Laws.EncodeRow.ldr _ _ _
  | str => exact Laws.EncodeRow.str _ _ _
  | rti => exact Laws.EncodeRow.rti _
  | not => exact Laws.EncodeRow.not _ _ _
  | ldi => exact Laws.EncodeRow.ldi _ _
  | sti => exact Laws.EncodeRow.sti _ _
  | jmp => exact Laws.EncodeRow.jmp _ _ _
  | reserved => exact Laws.EncodeRow.reserved _
  | lea => exact Laws.EncodeRow.lea _ _
  | trap => exact Laws.EncodeRow.trap _ _

theorem row_mem_opcodeTable (i : Instr) : i.row ∈ opcodeTable := by
  cases i <;> simp [Instr.row, opcodeTable]

theorem opcodeTable_nodup : opcodeTable.Nodup := by decide

/-- Two rows whose patterns agree under both masks are one row. -/
theorem opcodeTable_separated : ∀ r ∈ opcodeTable, ∀ q ∈ opcodeTable,
    r.pattern &&& q.mask = q.pattern &&& r.mask → r = q := by decide

/-- No word belongs to two rows. -/
theorem row_unique {r q : Row} {w : Word} (hr : r ∈ opcodeTable) (hq : q ∈ opcodeTable) (hrw : r.has w = true)
    (hqw : q.has w = true) : r = q := by
  simp only [Row.has, beq_iff_eq] at hrw hqw
  refine opcodeTable_separated r hr q hq ?_
  rw [← hrw, ← hqw, BitVec.and_assoc, BitVec.and_assoc, BitVec.and_comm r.mask]

/-- Settles O4: the row of the decoded instruction has the word, by the round trip, and no other row has. -/
theorem everyWordIsInOneRow : Obligations.EveryWordIsInOneRow := by
  unfold Obligations.EveryWordIsInOneRow
  intro w
  have hmem := row_mem_opcodeTable (decode w)
  have hhas : (decode w).row.has w = true := by
    have h := row_has_encode (decode w)
    rwa [encodeOfDecode w] at h
  have hfilter : opcodeTable.filter (fun r => r.has w) = opcodeTable.filter (fun r => r = (decode w).row) :=
    List.filter_congr fun r hr => by
      rw [Bool.eq_iff_iff, decide_eq_true_iff]
      exact ⟨fun h => row_unique hr hmem h hhas, fun h => h ▸ hhas⟩
  rw [hfilter, List.filter_eq, List.count_eq_one_of_mem opcodeTable_nodup hmem]
  rfl

/-! ## The assembler -/

/-- The number a concatenation stands for. -/
theorem toNat_append_add {m n : Nat} (x : BitVec m) (y : BitVec n) :
    (x ++ y).toNat = x.toNat * 2 ^ n + y.toNat := by
  rw [BitVec.toNat_append, ← Nat.shiftLeft_add_eq_or_of_lt y.isLt, Nat.shiftLeft_eq]

/-- The operand an assembly form writes is the field the instruction holds. -/
theorem asmField_eq_toNat (n : Nat) (v : Int) : asmField n v = (BitVec.ofInt n v).toNat := by
  rw [BitVec.toNat_ofInt]
  rfl

theorem eq_ofNat_of_toNat_eq {x : Word} {n : Nat} (h : x.toNat = n) : x = BitVec.ofNat 16 n := by
  rw [← h, BitVec.ofNat_toNat, BitVec.setWidth_eq]

/-- The sums of R103 and the words of R105 are the concatenations of the format tables, each field at its weight. -/
theorem encode_eq_assemble {a : Asm} {i : Instr} (hwf : a.wellFormed = true) (hi : a.instr = some i) :
    encode i = a.assemble := by
  cases a <;> cases hi
  case ret | nop | getc | out | puts | inp | halt | rti | reserved => rfl
  case trap vector =>
    have hlt : vector < 256 := of_decide_eq_true hwf
    refine eq_ofNat_of_toNat_eq ?_
    simp only [encode, toNat_append_add, BitVec.ofNat_eq_ofNat, BitVec.toNat_ofNat]
    omega
  all_goals
    refine eq_ofNat_of_toNat_eq ?_
    simp only [encode, letterBits, toNat_append_add, asmField_eq_toNat, Reg.num, BitVec.ofNat_eq_ofNat,
      BitVec.toNat_ofNat, BitVec.toNat_ofBool]
    omega

theorem instr_canonical {a : Asm} {i : Instr} (hi : a.instr = some i) : i.canonical = true := by
  cases a <;> cases hi <;> rfl

/-- Settles O5: the word is the encoding of the instruction, so the round trip decodes it. -/
theorem assembledWordDecodes : Obligations.AssembledWordDecodes := by
  unfold Obligations.AssembledWordDecodes
  intro a i hwf hi
  have hword := encode_eq_assemble hwf hi
  exact ⟨hword ▸ decodeOfEncode i, hword, instr_canonical hi⟩

/-! ## `extract` -/

/-- The bits of `sext_n`: the field's own, and from place `n` up its top bit as well. -/
theorem sextN_getLsbD (n : Nat) (f : Word) {i : Nat} (hi : i < 16) :
    (sextN n f).getLsbD i = (f.getLsbD i || (decide (n ≤ i) && f.getLsbD (n - 1))) := by
  cases htop : f.getLsbD (n - 1) with
  | false => rw [sextN_of_topBit_false htop, Bool.and_false, Bool.or_false]
  | true =>
    rw [sextN_of_topBit_true htop, BitVec.getLsbD_or, show (0xFFFF : Word) = BitVec.allOnes 16 from rfl,
      BitVec.getLsbD_shiftLeft, BitVec.getLsbD_allOnes]
    simp only [hi, show i - n < 16 by omega, ← decide_not, Nat.not_lt, decide_true, Bool.true_and, Bool.and_true]

/-- `extract` without the sign flag: the field's bits, and zeros above. -/
theorem extract_false_getLsbD (ir : Word) (hi len : Nat) {i : Nat} (hlt : i < 16) :
    (extract ir hi len false).getLsbD i = (decide (i < len) && ir.getLsbD (hi + 1 - len + i)) := by
  simp only [extract, Bool.false_eq_true, if_false, BitVec.getLsbD_ofNat, hlt, decide_true, Bool.true_and,
    Nat.testBit_mod_two_pow, Nat.testBit_shiftRight, BitVec.testBit_toNat]

theorem extract_true_eq (ir : Word) (hi len : Nat) : extract ir hi len true = sextN len (extract ir hi len false) := rfl

/-- `extract` with the sign flag: from the field's top place up, every bit is the word's bit `hi`. -/
theorem extract_true_getLsbD (ir : Word) {hi len i : Nat} (hhi : hi ≤ 15) (hlen : 1 ≤ len) (hle : len ≤ hi + 1)
    (hlt : i < 16) :
    (extract ir hi len true).getLsbD i = ir.getLsbD (if i < len then hi + 1 - len + i else hi) := by
  have htop : hi + 1 - len + (len - 1) = hi := by omega
  rw [extract_true_eq, sextN_getLsbD _ _ hlt, extract_false_getLsbD _ _ _ hlt,
    extract_false_getLsbD _ _ _ (show len - 1 < 16 by omega), htop]
  by_cases h : i < len
  · simp [h]
  · simp [h, show len ≤ i by omega, show len - 1 < len by omega]

/-- Settles O7: both clauses bit by bit; the signed one is `sext_n` of the unsigned one. -/
theorem extractIsTheField : Obligations.ExtractIsTheField := by
  unfold Obligations.ExtractIsTheField
  intro ir hi len i hhi hlen hle hlt
  exact ⟨extract_false_getLsbD ir hi len hlt, extract_true_getLsbD ir hhi hlen hle hlt⟩

/-! ## The operands of a decoded word -/

/-- An unsigned field is its slice, zero-extended. -/
theorem slice_setWidth_eq_extract (ir : Word) (hi len : Nat) :
    (slice ir (hi + 1 - len) len).setWidth 16 = extract ir hi len false := by
  apply BitVec.eq_of_getLsbD_eq
  intro i hlt
  rw [extract_false_getLsbD _ _ _ hlt, BitVec.getLsbD_setWidth, slice_getLsbD, decide_eq_true hlt, Bool.true_and]

/-- A signed field is its slice, sign-extended. -/
theorem sext_slice_eq_extract (ir : Word) {hi len : Nat} (hhi : hi ≤ 15) (hlen : 1 ≤ len) (hle : len ≤ hi + 1) :
    sext (slice ir (hi + 1 - len) len) = extract ir hi len true := by
  have htop : hi + 1 - len + (len - 1) = hi := by omega
  apply BitVec.eq_of_getLsbD_eq
  intro i hlt
  rw [extract_true_getLsbD ir hhi hlen hle hlt, sext, BitVec.getLsbD_signExtend, BitVec.msb_eq_getLsbD_last,
    slice_getLsbD, slice_getLsbD, decide_eq_true hlt, Bool.true_and]
  split_ifs with h
  · rw [decide_eq_true h, Bool.true_and]
  · rw [decide_eq_true (show len - 1 < len by omega), Bool.true_and, htop]

section fields
variable (w : Word)

theorem value_opcode : Field.opcode.value w = (slice w 12 4).setWidth 16 := (slice_setWidth_eq_extract w 15 4).symm
theorem value_dr : Field.dr.value w = (slice w 9 3).setWidth 16 := (slice_setWidth_eq_extract w 11 3).symm
theorem value_storeSr : Field.storeSr.value w = (slice w 9 3).setWidth 16 := (slice_setWidth_eq_extract w 11 3).symm
theorem value_sr1 : Field.sr1.value w = (slice w 6 3).setWidth 16 := (slice_setWidth_eq_extract w 8 3).symm
theorem value_immediateFlag : Field.immediateFlag.value w = (slice w 5 1).setWidth 16 :=
  (slice_setWidth_eq_extract w 5 1).symm
theorem value_sr2 : Field.sr2.value w = (slice w 0 3).setWidth 16 := (slice_setWidth_eq_extract w 2 3).symm
theorem value_conditionBits : Field.conditionBits.value w = (slice w 9 3).setWidth 16 :=
  (slice_setWidth_eq_extract w 11 3).symm
theorem value_longFlag : Field.longFlag.value w = (slice w 11 1).setWidth 16 := (slice_setWidth_eq_extract w 11 1).symm
theorem value_trapvect8 : Field.trapvect8.value w = (slice w 0 8).setWidth 16 := (slice_setWidth_eq_extract w 7 8).symm
theorem value_imm5 : Field.imm5.value w = sext (slice w 0 5) :=
  (sext_slice_eq_extract w (hi := 4) (by decide) (by decide) (by decide)).symm
theorem value_offset6 : Field.offset6.value w = sext (slice w 0 6) :=
  (sext_slice_eq_extract w (hi := 5) (by decide) (by decide) (by decide)).symm
theorem value_pcOffset9 : Field.pcOffset9.value w = sext (slice w 0 9) :=
  (sext_slice_eq_extract w (hi := 8) (by decide) (by decide) (by decide)).symm
theorem value_pcOffset11 : Field.pcOffset11.value w = sext (slice w 0 11) :=
  (sext_slice_eq_extract w (hi := 10) (by decide) (by decide) (by decide)).symm

end fields

/-- The decoder keeps the opcode the top four bits select. -/
theorem opcode_decode (w : Word) : (decode w).opcode = Opcode.ofBits (slice w 12 4) := by
  rw [← opcode_encode, encodeOfDecode]

/-- Settles O8: every operand the decoder gives is a slice, and every call of `extract` is that slice extended. -/
theorem operandsAreExtractedFields : Obligations.OperandsAreExtractedFields := by
  unfold Obligations.OperandsAreExtractedFields
  intro w
  refine ⟨by rw [opcode_decode, Opcode.bits_ofBits, value_opcode], ?_⟩
  cases ho : Opcode.ofBits (slice w 12 4) <;> simp only [decode, ho]
  case add | and | jumpRegister =>
    split
    · next hform =>
      have hflag := (getLsbD_iff_slice w _).1 hform
      simp [OperandsAreExtracted, regAt, value_dr, value_sr1, value_imm5, value_immediateFlag, value_pcOffset11,
        value_longFlag, hflag]
    · next hform =>
      have hflag := slice_one_of_clear hform
      simp [OperandsAreExtracted, regAt, value_dr, value_sr1, value_sr2, value_immediateFlag, value_longFlag, hflag]
  all_goals
    simp only [OperandsAreExtracted, regAt, Reg.bits_ofBits, value_dr, value_storeSr, value_sr1, value_conditionBits,
      value_offset6, value_pcOffset9, value_trapvect8, and_self]

/-! ## Words and forms with one meaning -/

/-- Settles O1: the decoder run on the seven words. -/
theorem sourceWordsDecode : Obligations.SourceWordsDecode := by
  unfold Obligations.SourceWordsDecode
  decide

/-- Settles O9: no arm of `exec` looks at an ignored bit. -/
theorem ignoredBitsHaveNoEffect : Obligations.IgnoredBitsHaveNoEffect := by
  unfold Obligations.IgnoredBitsHaveNoEffect
  intro i s
  cases i <;> rfl

end Sys2Proof.Machine
end

section
/-! PROOF. The statements of 20_memory.md about reads of the Memory Unit (R52 to R58), and of 70_reset_and_hazards.md about
the image load (R263). -/

namespace Sys2Proof.Machine

/-! ## Reads -/

/-- A read after a write to another address, or to an intercepted one, gives what it gave before the write. -/
theorem State.memRead_memWrite_of_cell {s : State} {d b : Word} (v : Word)
    (hcell : b ≠ s.config.kbsrAddress → b ≠ s.config.kbdrAddress → b ≠ d) :
    (s.memWrite d v).memRead b = (s.memRead b).map fun r => (r.1, r.2.memWrite d v) := by
  rcases s.memRead_cases b with ⟨h, e⟩ | ⟨h, h', hq, e⟩ | ⟨u, q, h, h', hq, e⟩ | ⟨h, h', e⟩ <;> rw [e]
  · exact State.memRead_kbsr (s := s.memWrite d v) h
  · exact State.memRead_kbdr_empty (s := s.memWrite d v) h h' hq
  · exact State.memRead_kbdr_unit (s := s.memWrite d v) h h' hq
  · rw [State.memRead_plain (s := s.memWrite d v) h h', s.cell_memWrite_other v (hcell h h')]
    rfl

/-- Settles O14: a plain read is at an address that is no device's. -/
theorem deviceCellIsNeverReadBack : Obligations.DeviceCellIsNeverReadBack := by
  unfold Obligations.DeviceCellIsNeverReadBack
  rintro s d v b (rfl | rfl)
  · exact State.memRead_memWrite_of_cell v fun hkbsr _ => hkbsr
  · exact State.memRead_memWrite_of_cell v fun _ hkbdr => hkbdr

theorem State.kbsrValue_eq (s : State) : s.kbsrValue = if s.inq = [] then 0x0000 else 0x8000 := by
  unfold State.kbsrValue State.inAvail
  cases s.inq <;> rfl

/-- The zero-extension of an input unit, as the statements write it. -/
theorem ofNat_toNat_byte (u : Byte) : BitVec.ofNat 16 u.toNat = zext16 u := BitVec.ofNat_toNat 16 u

/-- Settles O12: the four cases of the Memory Unit's read. -/
theorem memoryUnitRead : Obligations.MemoryUnitRead := by
  unfold Obligations.MemoryUnitRead
  intro s hne
  refine ⟨?_, State.memRead_kbdr_empty hne.symm rfl, fun u q hq => ?_, fun a => State.memRead_plain⟩
  · rw [State.memRead_kbsr rfl, State.kbsrValue_eq]
  · rw [State.memRead_kbdr_unit hne.symm rfl hq, ofNat_toNat_byte]
    rfl

/-! ## The image load -/

/-- Storing words changes the memory alone. -/
theorem State.storeWords_eq_setMem (ws : List Word) : ∀ (s : State) (a : Word),
    ∃ m, s.storeWords a ws = s.setMem m := by
  induction ws with
  | nil => exact fun s _ => ⟨s.mem, rfl⟩
  | cons w rest ih => exact fun s a => ih (s.memWrite a w) (a + 1)

theorem add_one_add_ofNat (a : Word) (k : Nat) : a + 1 + BitVec.ofNat 16 k = a + BitVec.ofNat 16 (k + 1) := by
  rw [BitVec.add_assoc, BitVec.ofNat_add, BitVec.add_comm 1]
  rfl

/-- An address none of the words goes to keeps its cell. -/
theorem State.storeWords_cell_other {b : Word} (ws : List Word) : ∀ (s : State) (a : Word),
    (∀ k, k < ws.length → b ≠ a + BitVec.ofNat 16 k) → (s.storeWords a ws).cell b = s.cell b := by
  induction ws with
  | nil => exact fun _ _ _ => rfl
  | cons w rest ih =>
    intro s a hb
    have hfirst : b ≠ a := by simpa using hb 0 (by simp)
    have hrest : ∀ k, k < rest.length → b ≠ a + 1 + BitVec.ofNat 16 k := fun k hk => by
      rw [add_one_add_ofNat]
      exact hb (k + 1) (by simpa using hk)
    exact (ih (s.memWrite a w) (a + 1) hrest).trans (s.cell_memWrite_other w hfirst)

/-- The words stand at consecutive addresses: no later word of at most 65536 comes round to an earlier one's. -/
theorem State.storeWords_cell (ws : List Word) : ∀ (s : State) (a : Word), s.mem.wf = true → ws.length ≤ 65536 →
    ∀ k (h : k < ws.length), (s.storeWords a ws).cell (a + BitVec.ofNat 16 k) = ws[k] := by
  induction ws with
  | nil => exact fun _ _ _ _ _ h => nomatch h
  | cons w rest ih =>
    intro s a hwf hlen k hk
    rw [List.length_cons] at hlen hk
    cases k with
    | zero =>
      have hother : ∀ j, j < rest.length → a ≠ a + 1 + BitVec.ofNat 16 j := fun j hj => by
        bv_omega
      have hkeep := State.storeWords_cell_other rest (s.memWrite a w) (a + 1) hother
      simpa [State.storeWords] using hkeep.trans (State.cell_memWrite_same hwf a w)
    | succ k =>
      rw [← add_one_add_ofNat]
      exact ih (s.memWrite a w) (a + 1) (State.memWrite_wf hwf a w) (by omega) k (by omega)

/-- Settles O57: the cells by `storeWords_cell` and `storeWords_cell_other`, and only the memory is replaced. -/
theorem imageLoadPlacesWords : Obligations.ImageLoadPlacesWords := by
  unfold Obligations.ImageLoadPlacesWords
  intro s origin ws hwf hlen
  refine ⟨State.storeWords_cell ws s origin hwf hlen, fun a => State.storeWords_cell_other ws s origin, ?_⟩
  obtain ⟨m, hm⟩ := State.storeWords_eq_setMem ws s origin
  simp only [State.loadImage, hm]
  exact ⟨fun _ => rfl, rfl, rfl, ⟨rfl, rfl, rfl, rfl, rfl, rfl, rfl⟩⟩

end Sys2Proof.Machine
end

section
/-! PROOF. The statements of 42_data_movement.md about one load or store, its reads completing or holding (R160 to R174). -/

namespace Sys2Proof.Machine

theorem loadFrom_of_some {s u : State} {a v : Word} (dr : Reg) (h : s.memRead a = some (v, u)) :
    loadFrom dr a s = .next (u.writeDest dr v) := by simp only [loadFrom, h]

theorem loadFrom_of_none {s : State} {a : Word} (dr : Reg) (h : s.memRead a = none) :
    loadFrom dr a s = .next (s.holdAt (.load dr)) := by simp only [loadFrom, h]

theorem ldiFrom_of_some {s u : State} {a p : Word} (dr : Reg) (h : s.memRead a = some (p, u)) :
    ldiFrom dr a s = loadFrom dr p u := by simp only [ldiFrom, h]

theorem ldiFrom_of_none {s : State} {a : Word} (dr : Reg) (h : s.memRead a = none) :
    ldiFrom dr a s = .next (s.holdAt (.ldiPointer dr)) := by simp only [ldiFrom, h]

theorem stiFrom_of_some {s u : State} {a p : Word} (sr : Reg) (h : s.memRead a = some (p, u)) :
    stiFrom sr a s = .next (u.memWrite p (s.reg sr)) := by
  obtain ⟨_, _, _, rfl⟩ := State.memRead_some h
  simp only [stiFrom, h]
  rfl

theorem stiFrom_of_none {s : State} {a : Word} (sr : Reg) (h : s.memRead a = none) :
    stiFrom sr a s = .next (s.holdAt (.stiPointer sr)) := by simp only [stiFrom, h]

/-- A data read that completes writes the destination. -/
theorem loadFrom_wrote {s u : State} {a v : Word} (dr : Reg) (h : s.memRead a = some (v, u)) :
    ∃ t, loadFrom dr a s = .next t ∧ WroteDest dr v u t :=
  ⟨_, loadFrom_of_some dr h, u.writeDest_wrote dr v⟩

/-- A pointer read of STI that completes stores at the pointer. -/
theorem stiFrom_stored {s u : State} {a p : Word} (sr : Reg) (hwf : s.mem.wf = true)
    (h : s.memRead a = some (p, u)) : ∃ t, stiFrom sr a s = .next t ∧ Stored p (s.reg sr) u t :=
  ⟨_, stiFrom_of_some sr h, State.memWrite_stored ((State.memRead_mem h).symm ▸ hwf) p (s.reg sr)⟩

/-- Settles O21: LD and LDR are one data read, at their effective address. -/
theorem loadResults : Obligations.LoadResults := by
  unfold Obligations.LoadResults
  exact ⟨fun dr _ _ _ _ h => loadFrom_wrote dr h, fun dr _ _ _ _ _ h => loadFrom_wrote dr h⟩

/-- Settles O22: the pointer read goes on as the data read at the pointer. -/
theorem ldiReadsPointerThenData : Obligations.LdiReadsPointerThenData := by
  unfold Obligations.LdiReadsPointerThenData
  intro dr off9 s u w p v hp hv
  obtain ⟨t, ht, hwrote⟩ := loadFrom_wrote dr hv
  exact ⟨t, (ldiFrom_of_some dr hp).trans ht, hwrote⟩

/-- Settles O23: a read that holds is `holdAt` on the state before it. -/
theorem readsHoldAtKbdr : Obligations.ReadsHoldAtKbdr := by
  unfold Obligations.ReadsHoldAtKbdr
  exact ⟨fun dr _ _ h => loadFrom_of_none dr h, fun dr _ _ _ h => loadFrom_of_none dr h,
    fun dr _ _ h => ldiFrom_of_none dr h,
    fun dr _ _ _ _ hp hd => (ldiFrom_of_some dr hp).trans (loadFrom_of_none dr hd),
    fun sr _ _ h => stiFrom_of_none sr h⟩

/-- Settles O24: each store is one `memWrite`, that of STI after its pointer read. -/
theorem storeResults : Obligations.StoreResults := by
  unfold Obligations.StoreResults
  exact ⟨fun sr off9 s hwf => ⟨_, rfl, State.memWrite_stored hwf (s.pcRel9 off9) (s.reg sr)⟩,
    fun sr base off6 s hwf => ⟨_, rfl, State.memWrite_stored hwf (s.base6 base off6) (s.reg sr)⟩,
    fun sr _ _ _ _ hwf h => stiFrom_stored sr hwf h⟩

end Sys2Proof.Machine
end

section
/-! PROOF. The statements of 43_control.md about one instruction: BR, JMP, JSR and JSRR (R190 to R198). -/

namespace Sys2Proof.Machine

/-- BR's test is the AND of the two fields. -/
theorem condTest_iff (nzp cond : BitVec 3) : condTest nzp cond = true ↔ nzp &&& cond ≠ 0 := by
  simp [condTest]

/-- BR's test on a legal condition code: the letter of the flag that is set is present. -/
theorem condTest_letters (n z p : Bool) {c : BitVec 3} (hc : c = 0b100 ∨ c = 0b010 ∨ c = 0b001 ∨ c = 0b000) :
    condTest (BitVec.ofBool n ++ BitVec.ofBool z ++ BitVec.ofBool p) c = true ↔
      (n = true ∧ c = 0b100) ∨ (z = true ∧ c = 0b010) ∨ (p = true ∧ c = 0b001) := by
  revert n z p
  rcases hc with rfl | rfl | rfl | rfl <;> decide

/-- Settles O26: `execBr_jumped` says where BR goes by its test, and the two clauses say what the test is. -/
theorem branchRule : Obligations.BranchRule := by
  unfold Obligations.BranchRule
  refine ⟨fun n z p off9 s hc => ⟨_, rfl, fun htaken => ?_, fun hnot => ?_⟩, fun nzp off9 s => ?_⟩
  · rw [if_pos ((condTest_letters n z p hc).2 htaken), s.ofInt_pc_add_off9]
    exact s.setPc_jumped _
  · rw [if_neg fun h => hnot ((condTest_letters n z p hc).1 h)]
  · have htarget : (if condTest nzp s.cond then s.pcRel9 off9 else s.pc) =
        if nzp &&& s.cond = 0 then s.pc else s.pc + off9.signExtend 16 := by
      simp only [condTest_iff, ne_eq, ite_not]
      rfl
    exact htarget ▸ execBr_jumped nzp off9 s

/-- Settles O27: JMP writes the pc alone. -/
theorem jumpResult : Obligations.JumpResult := by
  unfold Obligations.JumpResult
  exact fun base _ _ s => ⟨_, rfl, s.setPc_jumped (s.reg base)⟩

/-- Settles O28: JSR is a call, to the PC-relative address. -/
theorem jsrResult : Obligations.JsrResult := by
  unfold Obligations.JsrResult
  intro off11 s
  have htarget : BitVec.ofInt 16 ((s.pc.toNat : Int) + off11.toInt) = s.pcRel11 off11 := by
    rw [BitVec.ofInt_add, BitVec.ofInt_natCast, BitVec.ofNat_toNat, BitVec.setWidth_eq]
    rfl
  rw [htarget]
  exact ⟨_, rfl, s.setReg_link_setPc_called (s.pcRel11 off11)⟩

/-- Settles O29: JSRR is a call, to the base register as the link write has left it. -/
theorem jsrrResult : Obligations.JsrrResult := by
  unfold Obligations.JsrrResult
  intro base ignHi ignLo s
  refine ⟨_, rfl, ?_⟩
  have hbase : (s.setReg linkReg s.pc).reg base = if base = .r7 then s.pc else s.reg base :=
    s.reg_setReg linkReg base s.pc
  rw [← hbase]
  exact s.setReg_link_setPc_called _

end Sys2Proof.Machine
end

section
/-! PROOF. The statements of 44_trap_and_system.md: the five services and the empty one (R210 to R224), PUTS over a string
and over any memory (R216), and the two no-ops (R230, R232). -/

namespace Sys2Proof.Machine

/-! ## TRAP -/

/-- What a service leaves of the state after trap entry is what TRAP leaves: `x[7]` comes from the entry, and a service
writes no other register but `x[0]`. -/
theorem trapped_of_entry {s t : State} (hregs : ∀ r, r ≠ .r0 → t.reg r = s.trapEntry.reg r) (hcond : t.cond = s.cond)
    (hpc : t.pc = s.pc) (hcells : SameCells s t) (hstop : t.stopReq = s.stopReq) (hconfig : t.config = s.config) :
    Trapped s t where
  link := (hregs .r7 (by decide)).trans s.reg_trapEntry_link
  regs r h7 h0 := (hregs r h0).trans (s.trapEntry_trapped.regs r h7 h0)
  cond := hcond
  pc := hpc
  cells := hcells
  stopReq := hstop
  config := hconfig

/-- A service that writes `x[0]` last. -/
theorem setReg_r0_trapped {s t : State} (h : Trapped s t) (v : Word) : Trapped s (t.setReg .r0 v) where
  link := h.link
  regs r h7 h0 := (t.reg_setReg_other .r0 r v h0).trans (h.regs r h7 h0)
  cond := h.cond
  pc := h.pc
  cells := h.cells
  stopReq := h.stopReq
  config := h.config

/-- A service that streams alone: it takes units, writes to the console, and may hold. -/
theorem streamed_trapped (s : State) (k q o : List Byte) (h : Option Hold) :
    Trapped s (((s.trapEntry.takeUnits k q).setOut o).setHold h) :=
  trapped_of_entry (fun _ _ => rfl) rfl rfl (fun _ => rfl) rfl rfl

/-! ## Input services: GETC, and IN after its prompt -/

theorem getcService_of_nil {s : State} (hq : s.inq = []) : getcService s = .next (s.holdAt .getc) := by
  simp only [getcService, State.inTake_nil hq]

theorem getcService_of_cons {s : State} {u : Byte} {q : List Byte} (hq : s.inq = u :: q) :
    getcService s = .next ((s.takeUnits [u] q).setReg .r0 (zext16 u)) := by
  simp only [getcService, State.inTake_cons hq, State.trapReturn_eq]

theorem inTakeAndEcho_of_nil {s : State} (hq : s.inq = []) : inTakeAndEcho s = .next (s.holdAt .inTake) := by
  simp only [inTakeAndEcho, State.inTake_nil hq]

theorem inTakeAndEcho_of_cons {s : State} {u : Byte} {q : List Byte} (hq : s.inq = u :: q) :
    inTakeAndEcho s = .next (((s.takeUnits [u] q).conPut u).setReg .r0 (zext16 u)) := by
  simp only [inTakeAndEcho, State.inTake_cons hq, State.trapReturn_eq]

/-- IN writes its prompt after trap entry, then takes (44_trap_and_system.md R218). -/
theorem exec_in (ign : BitVec 4) (s : State) :
    exec (.trap 0x23 ign) s = inTakeAndEcho (s.trapEntry.setOut (s.out ++ s.config.inPrompt)) :=
  congrArg inTakeAndEcho (State.conPuts_eq s.trapEntry s.config.inPrompt)

/-- Settles O31: the unit taken goes to `x[0]`. -/
theorem getcResult : Obligations.GetcResult := by
  unfold Obligations.GetcResult
  intro ign s u q hq
  rw [ofNat_toNat_byte]
  exact ⟨_, getcService_of_cons (s := s.trapEntry) hq, setReg_r0_trapped (streamed_trapped s [u] q s.out s.hold) _,
    State.reg_setReg_same _ _ _, rfl, rfl, rfl, rfl, rfl⟩

/-- Settles O35: the prompt, then the unit's echo, then the unit to `x[0]`. -/
theorem inResult : Obligations.InResult := by
  unfold Obligations.InResult
  intro ign s u q hq
  rw [ofNat_toNat_byte, exec_in]
  exact ⟨_, inTakeAndEcho_of_cons (s := s.trapEntry.setOut _) hq,
    setReg_r0_trapped (streamed_trapped s [u] q (s.out ++ s.config.inPrompt ++ [u]) s.hold) _,
    State.reg_setReg_same _ _ _, rfl, rfl, rfl, rfl, rfl⟩

/-- Settles O38: both hold where they would take a unit, IN after its prompt. -/
theorem getcAndInHold : Obligations.GetcAndInHold := by
  unfold Obligations.GetcAndInHold
  intro ign s hq
  rw [exec_in]
  exact ⟨⟨_, getcService_of_nil (s := s.trapEntry) hq,
      trapped_of_entry (fun _ _ => rfl) rfl rfl (fun _ => rfl) rfl rfl, rfl, hq, rfl, rfl, rfl, rfl⟩,
    ⟨_, inTakeAndEcho_of_nil (s := s.trapEntry.setOut _) hq,
      trapped_of_entry (fun _ _ => rfl) rfl rfl (fun _ => rfl) rfl rfl, rfl, hq, rfl, rfl, rfl, rfl⟩⟩

/-! ## The services that take no input, and the no-ops -/

theorem ofNat_toNat_mod_256 (w : Word) : BitVec.ofNat 8 (w.toNat % 256) = lowByte w := by
  apply BitVec.eq_of_toNat_eq
  simp

/-- Settles O32: OUT appends one byte. -/
theorem outResult : Obligations.OutResult := by
  unfold Obligations.OutResult
  intro ign s
  rw [ofNat_toNat_mod_256]
  exact ⟨_, rfl, trapped_of_entry (fun _ _ => rfl) rfl rfl (fun _ => rfl) rfl rfl, rfl, rfl, rfl, rfl, rfl, rfl⟩

/-- HALT writes its notice after trap entry, then clears the run flag (44_trap_and_system.md R220). -/
theorem exec_halt (ign : BitVec 4) (s : State) :
    exec (.trap 0x25 ign) s = .next ((s.trapEntry.setOut (s.out ++ s.config.haltNotice)).setRunning false) :=
  congrArg (fun t : State => Host.Outcome.next (t.setRunning false))
    (State.conPuts_eq s.trapEntry s.config.haltNotice)

/-- Settles O36: the notice and the run flag, by `exec_halt`. -/
theorem haltResult : Obligations.HaltResult := by
  unfold Obligations.HaltResult
  intro ign s
  exact ⟨_, exec_halt ign s, trapped_of_entry (fun _ _ => rfl) rfl rfl (fun _ => rfl) rfl rfl, rfl, rfl, rfl, rfl,
    rfl, rfl⟩

/-- Settles O37: any other vector is the empty service, so trap entry is all that happens. -/
theorem unmappedVectorResult : Obligations.UnmappedVectorResult := by
  unfold Obligations.UnmappedVectorResult
  intro v ign s h20 h21 h22 h23 h25
  have htable : trapTable v = .empty := by simp only [trapTable, h20, h21, h22, h23, h25, if_false]
  have hexec : exec (.trap v ign) s = .next s.trapEntry :=
    congrArg (fun service => runService service s.trapEntry) htable
  exact ⟨_, hexec, s.trapEntry_trapped, rfl, ⟨rfl, rfl, rfl, rfl, rfl, rfl, rfl⟩⟩

/-- Settles O39: neither has an effect. -/
theorem noOpInstructions : Obligations.NoOpInstructions := by
  unfold Obligations.NoOpInstructions
  exact fun _ _ => ⟨rfl, rfl⟩

/-! ## PUTS over a string -/

/-- The loop over non-zero plain cells up to a plain zero cell writes their low bytes and ends. -/
theorem putsLoop_string (ws : List Word) : ∀ (fuel : Nat) (a : Word) (s : State), ws.length < fuel →
    (∀ k (h : k < ws.length), s.cell (a + BitVec.ofNat 16 k) = ws[k] ∧ ws[k] ≠ 0) →
    s.cell (a + BitVec.ofNat 16 ws.length) = 0 →
    (∀ k, k ≤ ws.length → s.intercepted (a + BitVec.ofNat 16 k) = false) →
    putsLoop fuel a s = s.setOut (s.out ++ ws.map lowByte) := by
  induction ws with
  | nil =>
    intro fuel a s hfuel _ hzero hplain
    obtain ⟨fuel, rfl⟩ := Nat.exists_eq_succ_of_ne_zero (Nat.ne_of_gt hfuel)
    have hend : s.intercepted a = false := by simpa using hplain 0 le_rfl
    rw [putsLoop_end hend (by simpa using hzero), List.map_nil, List.append_nil, State.setOut_same]
  | cons w rest ih =>
    intro fuel a s hfuel hcells hzero hplain
    rw [List.length_cons] at hfuel hzero hplain
    obtain ⟨fuel, rfl⟩ := Nat.exists_eq_succ_of_ne_zero (Nat.ne_of_gt (Nat.zero_lt_of_lt hfuel))
    have hfirst : s.intercepted a = false := by simpa using hplain 0 (Nat.zero_le _)
    obtain ⟨hw, hw0⟩ : s.cell a = w ∧ w ≠ 0 := by
      have h := hcells 0 (Nat.succ_pos _)
      rwa [BitVec.add_zero] at h
    rw [putsLoop_plain hfirst (hw ▸ hw0), hw, ih fuel (a + 1) (s.conPut (lowByte w)) (by omega)]
    · rw [State.conPut_out, List.append_assoc]
      rfl
    · intro k hk
      rw [add_one_add_ofNat]
      exact hcells (k + 1) (by simpa using hk)
    · rw [add_one_add_ofNat]
      exact hzero
    · intro k hk
      rw [add_one_add_ofNat]
      exact hplain (k + 1) (by omega)

/-- A run of plain addresses is shorter than the address space: it does not reach KBDR. -/
theorem length_lt_of_plain {s : State} {a : Word} {n : Nat}
    (h : ∀ k, k ≤ n → s.intercepted (a + BitVec.ofNat 16 k) = false) : n < 65536 := by
  by_contra hn
  have hkbdr := h (s.config.kbdrAddress - a).toNat (by omega)
  have haddr : a + (s.config.kbdrAddress - a) = s.config.kbdrAddress := by bv_omega
  rw [BitVec.ofNat_toNat, BitVec.setWidth_eq, haddr] at hkbdr
  simp [State.intercepted] at hkbdr

/-- Settles O33: the string is shorter than the address space, so the fuel is enough for it. -/
theorem putsPrintsString : Obligations.PutsPrintsString := by
  unfold Obligations.PutsPrintsString
  intro ign s ws hcells hzero hplain
  have hfuel : ws.length < putsFuel s.trapEntry := by
    have := length_lt_of_plain hplain
    unfold putsFuel
    omega
  have hloop := putsLoop_string ws _ (s.reg .r0) s.trapEntry hfuel hcells hzero hplain
  simp only [ofNat_toNat_mod_256]
  exact ⟨_, congrArg Host.Outcome.next hloop, trapped_of_entry (fun _ _ => rfl) rfl rfl (fun _ => rfl) rfl rfl, rfl,
    rfl, rfl, rfl, rfl, rfl⟩

/-! ## PUTS over any memory -/

/-- How many reads PUTS can make from `a` on before it ends or holds: those up to KBDR, and a pass over the address space
for each unit pending. -/
def putsMeasure (a : Word) (s : State) : Nat := (s.config.kbdrAddress - a).toNat + 65536 * s.inq.length

theorem putsMeasure_lt_putsFuel (a : Word) (s : State) : putsMeasure a s < putsFuel s := by
  have := (s.config.kbdrAddress - a).isLt
  unfold putsMeasure putsFuel
  omega

theorem kbsr_ne_kbdr_of_legal {c : Config} (h : c.legal = true) : c.kbsrAddress ≠ c.kbdrAddress := by
  simp only [Config.legal, Bool.and_eq_true, bne_iff_ne] at h
  exact h.1

/-- Each read uses up one of them. -/
theorem putsMeasure_next {s t : State} {a w : Word} (hlegal : s.config.legal = true)
    (h : s.memRead a = some (w, t)) (b : Byte) : putsMeasure (a + 1) (t.conPut b) + 1 = putsMeasure a s := by
  have hpass {n : Nat} (ha : a ≠ s.config.kbdrAddress) :
      (s.config.kbdrAddress - (a + 1)).toNat + 65536 * n + 1 = (s.config.kbdrAddress - a).toNat + 65536 * n := by
    bv_omega
  rcases s.memRead_cases a with ⟨ha, e⟩ | ⟨_, _, _, e⟩ | ⟨u, q, _, ha, hq, e⟩ | ⟨_, ha, e⟩ <;> cases h.symm.trans e
  · exact hpass (ha ▸ kbsr_ne_kbdr_of_legal hlegal)
  · show (s.config.kbdrAddress - (a + 1)).toNat + 65536 * q.length + 1 =
      (s.config.kbdrAddress - a).toNat + 65536 * s.inq.length
    rw [hq, List.length_cons, ha]
    bv_omega
  · exact hpass ha

/-- With fuel for all its reads the loop ends, or holds at KBDR with nothing pending. -/
theorem putsLoop_ends_or_holds : ∀ (fuel : Nat) (a : Word) (s : State), s.config.legal = true →
    putsMeasure a s < fuel → (putsLoop fuel a s).hold = s.hold ∨
      ((putsLoop fuel a s).hold = some (.puts s.config.kbdrAddress) ∧ (putsLoop fuel a s).inq = [])
  | fuel + 1, a, s, hlegal, hfuel => by
    simp only [putsLoop]
    cases h : s.memRead a with
    | none =>
      obtain ⟨ha, hq⟩ := State.memRead_none h
      exact .inr ⟨by simp [ha], hq⟩
    | some r =>
      obtain ⟨w, t⟩ := r
      have hnext := putsMeasure_next hlegal h (lowByte w)
      obtain ⟨k, q, _, rfl⟩ := State.memRead_some h
      dsimp only
      split_ifs
      · exact .inl rfl
      · exact putsLoop_ends_or_holds fuel (a + 1) ((s.takeUnits k q).conPut (lowByte w)) hlegal (by omega)

/-- More fuel than that changes nothing. -/
theorem putsLoop_fuel_eq : ∀ (fuel fuel' : Nat) (a : Word) (s : State), s.config.legal = true →
    putsMeasure a s < fuel → putsMeasure a s < fuel' → putsLoop fuel a s = putsLoop fuel' a s
  | fuel + 1, fuel' + 1, a, s, hlegal, hfuel, hfuel' => by
    simp only [putsLoop]
    cases h : s.memRead a with
    | none => rfl
    | some r =>
      obtain ⟨w, t⟩ := r
      have hnext := putsMeasure_next hlegal h (lowByte w)
      obtain ⟨k, q, _, rfl⟩ := State.memRead_some h
      dsimp only
      split_ifs
      · rfl
      · exact putsLoop_fuel_eq fuel fuel' (a + 1) ((s.takeUnits k q).conPut (lowByte w)) hlegal (by omega) (by omega)

/-- PUTS from any address over any memory: it streams, and ends or holds at KBDR with nothing pending. -/
theorem putsFrom_streams (a : Word) {s : State} (hlegal : s.config.legal = true) :
    ∃ k q emitted h, putsFrom a s = .next (((s.takeUnits k q).setOut (s.out ++ emitted)).setHold h) ∧
      s.inq = k ++ q ∧ (h = s.hold ∨ (h = some (.puts s.config.kbdrAddress) ∧ q = [])) := by
  obtain ⟨k, q, _, h, e, hq, ⟨emitted, rfl⟩, _⟩ := putsLoop_frame (putsFuel s) a s
  have hend := putsLoop_ends_or_holds (putsFuel s) a s hlegal (putsMeasure_lt_putsFuel a s)
  rw [e] at hend
  exact ⟨k, q, emitted, h, congrArg Host.Outcome.next e, hq, hend⟩

/-- Settles O34: PUTS after trap entry is `putsFrom`, whose fuel is enough. -/
theorem putsEndsOrHoldsAtKbdr : Obligations.PutsEndsOrHoldsAtKbdr := by
  unfold Obligations.PutsEndsOrHoldsAtKbdr
  intro ign s hlegal hhold
  obtain ⟨k, q, emitted, h, e, hq, hend⟩ := putsFrom_streams (s.trapEntry.reg .r0) (s := s.trapEntry) hlegal
  exact ⟨_, e, streamed_trapped s k q (s.out ++ emitted) h, rfl, rfl, ⟨k, hq, rfl⟩, ⟨emitted, rfl⟩, hhold ▸ hend⟩

end Sys2Proof.Machine
end

section
/-! PROOF. What each instruction changes and what it leaves: the pc (10_state.md R23), the registers (R21), the flags
(R27) and the cells (20_memory.md R62). -/

namespace Sys2Proof.Machine

/-! ## The frame of a read, of a load and of a service -/

/-- `t` comes from `s` by a meaning that may stream and set flags, but writes no register other than `d`, no cell and not
the pc. -/
structure WritesAtMost (d : Reg) (s t : State) : Prop where
  pc : t.pc = s.pc
  regs : SameRegsBut d s t
  cells : SameCells s t

theorem writesAtMost_of_eq (d : Reg) {s t : State} (hpc : t.pc = s.pc) (hregs : t.regs = s.regs) (hmem : t.mem = s.mem) :
    WritesAtMost d s t :=
  ⟨hpc, fun r _ => State.reg_congr hregs r, fun a => State.cell_congr hmem a⟩

theorem WritesAtMost.trans {d : Reg} {s t u : State} (h : WritesAtMost d s t) (h' : WritesAtMost d t u) :
    WritesAtMost d s u :=
  ⟨h'.pc.trans h.pc, fun r hr => (h'.regs r hr).trans (h.regs r hr), fun a => (h'.cells a).trans (h.cells a)⟩

theorem WritesAtMost.setReg {d : Reg} {s t : State} (h : WritesAtMost d s t) (v : Word) :
    WritesAtMost d s (t.setReg d v) :=
  ⟨h.pc, fun r hr => (t.reg_setReg_other d r v hr).trans (h.regs r hr), h.cells⟩

theorem writesAtMost_writeDest (d : Reg) (s : State) (v : Word) : WritesAtMost d s (s.writeDest d v) :=
  ⟨rfl, fun r hr => s.writeDest_reg_other d v r hr, fun _ => rfl⟩

theorem writesAtMost_memRead (d : Reg) {s t : State} {a v : Word} (h : s.memRead a = some (v, t)) :
    WritesAtMost d s t := by
  obtain ⟨k, q, _, rfl⟩ := State.memRead_some h
  exact writesAtMost_of_eq d rfl rfl rfl

theorem loadFrom_writesAtMost {dr : Reg} {a : Word} {s t : State} (ht : loadFrom dr a s = .next t) :
    WritesAtMost dr s t := by
  rcases loadFrom_cases dr a s with ⟨_, e⟩ | ⟨v, u, hread, e⟩ <;> cases ht.symm.trans e
  · exact writesAtMost_of_eq dr rfl rfl rfl
  · exact (writesAtMost_memRead dr hread).trans (writesAtMost_writeDest dr u v)

theorem ldiFrom_writesAtMost {dr : Reg} {a : Word} {s t : State} (ht : ldiFrom dr a s = .next t) :
    WritesAtMost dr s t := by
  rcases ldiFrom_cases dr a s with ⟨_, e⟩ | ⟨p, u, hread, e⟩
  · cases ht.symm.trans e
    exact writesAtMost_of_eq dr rfl rfl rfl
  · exact (writesAtMost_memRead dr hread).trans (loadFrom_writesAtMost (e.symm.trans ht))

/-- A flag-setting instruction writes its destination at most (10_state.md R27). -/
theorem exec_writesAtMost_of_flagDest {i : Instr} {dr : Reg} (hd : i.flagDest = some dr) {s t : State}
    (ht : exec i s = .next t) : WritesAtMost dr s t := by
  cases i with
  | addReg | addImm | andReg | andImm | not | lea =>
    cases hd
    cases ht
    exact writesAtMost_writeDest dr s _
  | ld | ldr =>
    cases hd
    exact loadFrom_writesAtMost ht
  | ldi =>
    cases hd
    exact ldiFrom_writesAtMost ht
  | br | st | str | sti | jsr | jsrr | jmp | rti | reserved | trap => cases hd

/-- A service writes `x[0]` at most, and only GETC and IN write it. -/
theorem runService_writesAtMost {v : Service} {s t : State} (ht : runService v s = .next t) :
    WritesAtMost .r0 s t ∧ (v ≠ .getc → v ≠ .inp → t.reg .r0 = s.reg .r0) := by
  cases v with
  | getc =>
    refine ⟨?_, fun h => absurd rfl h⟩
    rcases getcService_cases s with ⟨_, e⟩ | ⟨u, q, _, e⟩ <;> cases ht.symm.trans e
    · exact writesAtMost_of_eq _ rfl rfl rfl
    · refine WritesAtMost.setReg ?_ _
      exact writesAtMost_of_eq _ rfl rfl rfl
  | out | empty =>
    cases ht
    exact ⟨writesAtMost_of_eq _ rfl rfl rfl, fun _ _ => rfl⟩
  | puts =>
    cases ht
    obtain ⟨k, q, o, h, e, _⟩ := putsLoop_frame (putsFuel s) (s.reg .r0) s
    rw [e]
    exact ⟨writesAtMost_of_eq _ rfl rfl rfl, fun _ _ => rfl⟩
  | inp =>
    refine ⟨?_, fun _ h => absurd rfl h⟩
    rw [runService, inService, State.conPuts_eq] at ht
    rcases inTakeAndEcho_cases (s.setOut (s.out ++ s.config.inPrompt)) with ⟨_, e⟩ | ⟨u, q, _, e⟩ <;>
      cases ht.symm.trans e
    · exact writesAtMost_of_eq _ rfl rfl rfl
    · refine WritesAtMost.setReg ?_ _
      exact writesAtMost_of_eq _ rfl rfl rfl
  | halt =>
    cases ht
    rw [State.conPuts_eq]
    exact ⟨writesAtMost_of_eq _ rfl rfl rfl, fun _ _ => rfl⟩

/-- STI writes neither a register nor the pc, and no cell but the one its pointer names. -/
theorem stiFrom_frame {sr : Reg} {a : Word} {s t : State} (ht : stiFrom sr a s = .next t) :
    t.pc = s.pc ∧ SameRegs s t ∧ ∀ b, (s.memRead a).map Prod.fst ≠ some b → t.cell b = s.cell b := by
  rcases stiFrom_cases sr a s with ⟨_, e⟩ | ⟨p, u, hread, e⟩ <;> cases ht.symm.trans e
  · exact ⟨rfl, fun _ => rfl, fun _ _ => rfl⟩
  · obtain ⟨k, q, _, rfl⟩ := State.memRead_some hread
    refine ⟨rfl, fun _ => rfl, fun b hb => State.cell_memWrite_other _ _ ?_⟩
    rw [hread] at hb
    exact fun e => hb (congrArg some e.symm)

/-! ## What an instruction leaves -/

/-- Settles O50: a flag-setting instruction, a store, a service and a no-op leave the pc. -/
theorem onlyControlTransfersWritePc : Obligations.OnlyControlTransfersWritePc := by
  unfold Obligations.OnlyControlTransfersWritePc
  intro i s t ht hbr hjmp hjsr hjsrr
  cases hd : i.flagDest with
  | some dr => exact (exec_writesAtMost_of_flagDest hd ht).pc
  | none =>
    cases i with
    | br nzp off9 => exact absurd rfl (hbr nzp off9)
    | jmp base h l => exact absurd rfl (hjmp base h l)
    | jsr off11 => exact absurd rfl (hjsr off11)
    | jsrr base h l => exact absurd rfl (hjsrr base h l)
    | st | str | rti | reserved =>
      cases ht
      rfl
    | sti =>
      obtain ⟨hpc, _, _⟩ := stiFrom_frame ht
      exact hpc
    | trap => exact (runService_writesAtMost ht).1.pc
    | addReg | addImm | andReg | andImm | not | ld | ldr | ldi | lea => cases hd

theorem mayWrite_of_flagDest {i : Instr} {dr : Reg} (hd : i.flagDest = some dr) (r : Reg) :
    i.mayWrite r = (r == dr) := by
  cases i <;> cases hd <;> rfl

/-- TRAP may write `x[7]`, and `x[0]` if its service is GETC or IN. -/
theorem mayWrite_trap_eq_false {v : Byte} {ign : BitVec 4} {r : Reg} (h : (Instr.trap v ign).mayWrite r = false) :
    r ≠ .r7 ∧ (r = .r0 → trapTable v ≠ .getc ∧ trapTable v ≠ .inp) := by
  simp only [Instr.mayWrite, Bool.or_eq_false_iff, beq_eq_false_iff_ne] at h
  obtain ⟨h7, h0⟩ := h
  refine ⟨h7, ?_⟩
  rintro rfl
  simp only [beq_self_eq_true, Bool.true_and, Bool.or_eq_false_iff, beq_eq_false_iff_ne] at h0
  obtain ⟨h20, h23⟩ := h0
  rcases trapTable_cases v with ⟨e, _⟩ | ⟨_, e⟩ | ⟨_, e⟩ | ⟨e, _⟩ | ⟨_, e⟩ | ⟨_, _, _, _, _, e⟩
  case inl => exact absurd e h20
  case inr.inr.inr.inl => exact absurd e h23
  all_goals
    rw [e]
    exact ⟨nofun, nofun⟩

/-- Settles O52: the destination of a flag-setting instruction, the link of a call or a TRAP, and `x[0]` of two
services. -/
theorem onlyListedRegistersAreWritten : Obligations.OnlyListedRegistersAreWritten := by
  unfold Obligations.OnlyListedRegistersAreWritten
  intro i s t ht r hr
  cases hd : i.flagDest with
  | some dr =>
    rw [mayWrite_of_flagDest hd, beq_eq_false_iff_ne] at hr
    exact (exec_writesAtMost_of_flagDest hd ht).regs r hr
  | none =>
    cases i with
    | br nzp off9 =>
      obtain ⟨u, e, hjumped⟩ := execBr_jumped nzp off9 s
      cases ht.symm.trans e
      exact hjumped.regs r
    | jmp | st | str | rti | reserved =>
      cases ht
      rfl
    | jsr | jsrr =>
      cases ht
      exact s.reg_setReg_other linkReg r s.pc (beq_eq_false_iff_ne.1 hr)
    | sti =>
      obtain ⟨_, hregs, _⟩ := stiFrom_frame ht
      exact hregs r
    | trap v ign =>
      obtain ⟨h7, h0⟩ := mayWrite_trap_eq_false hr
      obtain ⟨hframe, hr0⟩ := runService_writesAtMost ht
      have hentry : s.trapEntry.reg r = s.reg r := s.reg_setReg_other linkReg r s.pc h7
      by_cases hr : r = .r0
      · obtain ⟨hgetc, hinp⟩ := h0 hr
        exact (hr ▸ hr0 hgetc hinp).trans hentry
      · exact (hframe.regs r hr).trans hentry
    | addReg | addImm | andReg | andImm | not | ld | ldr | ldi | lea => cases hd

/-- Settles O53: only the three stores write a cell. -/
theorem onlyTheStoreAddressIsWritten : Obligations.OnlyTheStoreAddressIsWritten := by
  unfold Obligations.OnlyTheStoreAddressIsWritten
  intro i s t ht b hb
  cases hd : i.flagDest with
  | some dr => exact (exec_writesAtMost_of_flagDest hd ht).cells b
  | none =>
    cases i with
    | br nzp off9 =>
      obtain ⟨u, e, hjumped⟩ := execBr_jumped nzp off9 s
      cases ht.symm.trans e
      exact hjumped.cells b
    | jmp | jsr | jsrr | rti | reserved =>
      cases ht
      rfl
    | st | str =>
      cases ht
      exact s.cell_memWrite_other _ fun e => hb (congrArg some e.symm)
    | sti =>
      obtain ⟨_, _, hcells⟩ := stiFrom_frame ht
      exact hcells b hb
    | trap => exact (runService_writesAtMost ht).1.cells b
    | addReg | addImm | andReg | andImm | not | ld | ldr | ldi | lea => cases hd

/-! ## Flags -/

/-- A meaning that neither reads nor writes `cond` leaves it: it does so under the `cond` the state has. -/
theorem IgnoresCond.cond_eq {f : State → Result} (hf : IgnoresCond f) {s t : State} (ht : f s = .next t) :
    t.cond = s.cond := by
  have h := hf s s.cond
  rw [State.setCond_same, ht] at h
  injection h with h
  rw [h]
  rfl

theorem State.memRead_hold {s t : State} {a v : Word} (h : s.memRead a = some (v, t)) : t.hold = s.hold := by
  obtain ⟨_, _, _, rfl⟩ := State.memRead_some h
  rfl

theorem State.memRead_cond {s t : State} {a v : Word} (h : s.memRead a = some (v, t)) : t.cond = s.cond := by
  obtain ⟨_, _, _, rfl⟩ := State.memRead_some h
  rfl

/-- A data read that changes the hold has not set the flags. -/
theorem loadFrom_hold_or_cond {dr : Reg} {a : Word} {s t : State} (ht : loadFrom dr a s = .next t) :
    t.hold = s.hold ∨ t.cond = s.cond := by
  rcases loadFrom_cases dr a s with ⟨_, e⟩ | ⟨v, u, hread, e⟩ <;> cases ht.symm.trans e
  · exact .inr rfl
  · exact .inl ((u.writeDest_hold dr v).trans (State.memRead_hold hread))

theorem ldiFrom_hold_or_cond {dr : Reg} {a : Word} {s t : State} (ht : ldiFrom dr a s = .next t) :
    t.hold = s.hold ∨ t.cond = s.cond := by
  rcases ldiFrom_cases dr a s with ⟨_, e⟩ | ⟨p, u, hread, e⟩
  · cases ht.symm.trans e
    exact .inr rfl
  · rw [← State.memRead_hold hread, ← State.memRead_cond hread]
    exact loadFrom_hold_or_cond (e.symm.trans ht)

theorem exec_hold_or_cond {i : Instr} {dr : Reg} (hd : i.flagDest = some dr) {s t : State}
    (ht : exec i s = .next t) : t.hold = s.hold ∨ t.cond = s.cond := by
  cases i with
  | addReg | addImm | andReg | andImm | not | lea =>
    cases ht
    exact .inl rfl
  | ld | ldr => exact loadFrom_hold_or_cond ht
  | ldi => exact ldiFrom_hold_or_cond ht
  | br | st | str | sti | jsr | jsrr | jmp | rti | reserved | trap => cases hd

/-- Settles O51: an instruction that sets no flags ignores `cond` or is BR; one that sets them sets those of its
destination, or holds. -/
theorem onlySevenInstructionsSetFlags : Obligations.OnlySevenInstructionsSetFlags := by
  unfold Obligations.OnlySevenInstructionsSetFlags
  intro i s t ht
  refine ⟨fun hd => ?_, fun dr hd _ hdone => (exec_flagOf_of_completes hd ht hdone).1,
    fun dr hd hheld => (exec_hold_or_cond hd ht).resolve_left hheld⟩
  cases i with
  | br nzp off9 =>
    obtain ⟨u, e, hjumped⟩ := execBr_jumped nzp off9 s
    cases ht.symm.trans e
    exact hjumped.cond
  | addReg | addImm | ld | st | jsr | jsrr | andReg | andImm | ldr | str | rti | not | ldi | sti | jmp | reserved
  | lea | trap => exact (exec_ignoresCond hd nofun).cond_eq ht

end Sys2Proof.Machine
end

section
/-! PROOF. The statements of 40_instruction_cycle.md about the step from a running boundary: the fetch and its instruction
(R120 to R124), self-modifying code (20_memory.md R68), the HALT word (R127) and runs of no-ops (R129). -/

namespace Sys2Proof.Machine

theorem step_of_running {s : State} (hhold : s.hold = none) (hrun : s.running = true) (hstop : s.stopReq = false) :
    step s = fetchExecute s := by
  simp [step, cycle, boundary, hhold, hrun, hstop]

theorem step_of_hold {s : State} {h : Hold} (hh : s.hold = some h) : step s = resume h (s.setHold none) := by
  simp only [step, cycle, hh]

theorem step_of_halted {s : State} (hhold : s.hold = none) (hrun : s.running = false) : step s = .fault .halted := by
  simp [step, cycle, boundary, hhold, hrun]

theorem step_of_stopReq {s : State} (hhold : s.hold = none) (hrun : s.running = true) (hstop : s.stopReq = true) :
    step s = .next (s.setRunning false) := by
  simp [step, cycle, boundary, hhold, hrun, hstop]

theorem fetchExecute_of_some {s u : State} {ir : Word} (h : s.memRead s.pc = some (ir, u)) :
    fetchExecute s = exec (decode ir) (u.setPc (s.pc + 1)) := by
  obtain ⟨_, _, _, rfl⟩ := State.memRead_some h
  simp only [fetchExecute, h]
  rfl

theorem fetchExecute_of_none {s : State} (h : s.memRead s.pc = none) : fetchExecute s = .next (s.holdAt .fetch) := by
  simp only [fetchExecute, h]

/-- Settles O41: a running boundary is one fetch and its instruction. -/
theorem stepRunsDecodedInstruction : Obligations.StepRunsDecodedInstruction := by
  unfold Obligations.StepRunsDecodedInstruction
  intro s hhold hrun hstop
  rw [step_of_running hhold hrun hstop]
  exact ⟨fun ir u => fetchExecute_of_some, fetchExecute_of_none⟩

/-- A plain cell is fetched as it stands. -/
theorem step_of_plain {s : State} (hhold : s.hold = none) (hrun : s.running = true) (hstop : s.stopReq = false)
    (hplain : s.intercepted s.pc = false) : step s = exec (decode (s.cell s.pc)) (s.setPc (s.pc + 1)) := by
  simp only [State.intercepted, Bool.or_eq_false_iff, beq_eq_false_iff_ne] at hplain
  rw [step_of_running hhold hrun hstop, fetchExecute_of_some (State.memRead_plain hplain.1 hplain.2)]

/-- Settles O48: the cell stored to is plain, so the step fetches it. -/
theorem storedWordIsFetchedNext : Obligations.StoredWordIsFetchedNext := by
  unfold Obligations.StoredWordIsFetchedNext
  intro s v hwf hhold hrun hstop hplain
  rw [step_of_plain (s := s.memWrite s.pc v) hhold hrun hstop hplain]
  simp only [State.memWrite_pc, State.cell_memWrite_same hwf]
  rfl

/-- Settles O47: `exec_halt` after the fetch, and the state it leaves is HALTED at a boundary. -/
theorem haltWordEndsTheRun : Obligations.HaltWordEndsTheRun := by
  unfold Obligations.HaltWordEndsTheRun
  intro s u ir ign hhold hrun hstop hread hdecode
  have hhalt := exec_halt ign (u.setPc (s.pc + 1))
  rw [← hdecode, ← fetchExecute_of_some hread, ← step_of_running hhold hrun hstop] at hhalt
  obtain ⟨k, q, _, rfl⟩ := State.memRead_some hread
  exact ⟨_, hhalt, rfl, rfl, State.reg_trapEntry_link _, rfl, step_of_halted hhold rfl⟩

/-- A step over an RTI or RESERVED word in a plain cell advances the pc. -/
theorem step_noOp {s : State} {ign : BitVec 12} (hhold : s.hold = none) (hrun : s.running = true)
    (hstop : s.stopReq = false) (hplain : s.intercepted s.pc = false)
    (hword : decode (s.cell s.pc) = .rti ign ∨ decode (s.cell s.pc) = .reserved ign) :
    step s = .next (s.setPc (s.pc + 1)) := by
  rw [step_of_plain hhold hrun hstop hplain]
  rcases hword with e | e <;> rw [e] <;> rfl

/-- A run whose first step answers goes on from that answer. -/
theorem core_run_succ (n : Nat) {s t : State} (h : step s = .next t) :
    Host.Core.run Sys2Proof.core (n + 1) s = Host.Core.run Sys2Proof.core n t := by
  have hstep : Sys2Proof.core.step s = .next t := h
  refine (Host.Core.run.eq_2 Sys2Proof.core s n).trans ?_
  rw [hstep]

/-- Settles O40: by induction on the number of steps, each one `step_noOp`. -/
theorem noOpsAnyNumberOfTimes : Obligations.NoOpsAnyNumberOfTimes := by
  unfold Obligations.NoOpsAnyNumberOfTimes
  intro n
  induction n with
  | zero =>
    intro s _ _ _ _
    rw [BitVec.add_zero, State.setPc_same]
    rfl
  | succ n ih =>
    intro s hhold hrun hstop hwords
    obtain ⟨hplain, ign, hword⟩ := hwords 0 (Nat.succ_pos n)
    rw [BitVec.add_zero] at hplain hword
    have hrest := ih (s.setPc (s.pc + 1)) hhold hrun hstop fun k hk => by
      rw [State.setPc_pc, add_one_add_ofNat]
      exact hwords (k + 1) (by omega)
    refine (core_run_succ n (step_noOp hhold hrun hstop hplain hword)).trans (hrest.trans ?_)
    rw [State.setPc_pc, add_one_add_ofNat]
    rfl

end Sys2Proof.Machine
end

section
/-! PROOF. Every instruction, and the rest of every held cycle, answers a next state (00_scope.md R10). -/

namespace Sys2Proof.Machine

/-- A meaning that answers a next state whatever the state. -/
def Answers (f : State → Result) : Prop := ∀ s, ∃ t, f s = .next t

theorem loadFrom_answers (dr : Reg) (a : Word) : Answers (loadFrom dr a) := by
  intro s
  rcases loadFrom_cases dr a s with ⟨_, e⟩ | ⟨_, _, _, e⟩ <;> exact ⟨_, e⟩

theorem ldiFrom_answers (dr : Reg) (a : Word) : Answers (ldiFrom dr a) := by
  intro s
  rcases ldiFrom_cases dr a s with ⟨_, e⟩ | ⟨p, u, _, e⟩
  · exact ⟨_, e⟩
  · exact e ▸ loadFrom_answers dr p u

theorem stiFrom_answers (sr : Reg) (a : Word) : Answers (stiFrom sr a) := by
  intro s
  rcases stiFrom_cases sr a s with ⟨_, e⟩ | ⟨_, _, _, e⟩ <;> exact ⟨_, e⟩

theorem getcService_answers : Answers getcService := by
  intro s
  rcases getcService_cases s with ⟨_, e⟩ | ⟨_, _, _, e⟩ <;> exact ⟨_, e⟩

theorem inTakeAndEcho_answers : Answers inTakeAndEcho := by
  intro s
  rcases inTakeAndEcho_cases s with ⟨_, e⟩ | ⟨_, _, _, e⟩ <;> exact ⟨_, e⟩

theorem runService_answers (v : Service) : Answers (runService v) := by
  cases v with
  | getc => exact getcService_answers
  | inp => exact fun s => inTakeAndEcho_answers _
  | out | puts | halt | empty => exact fun s => ⟨_, rfl⟩

/-- Every instruction has a meaning in every state (00_scope.md R10). -/
theorem exec_answers (i : Instr) : Answers (exec i) := by
  cases i with
  | ld dr off9 => exact fun s => loadFrom_answers dr _ s
  | ldr dr base off6 => exact fun s => loadFrom_answers dr _ s
  | ldi dr off9 => exact fun s => ldiFrom_answers dr _ s
  | sti sr off9 => exact fun s => stiFrom_answers sr _ s
  | trap vect8 ign => exact fun s => runService_answers (trapTable vect8) s.trapEntry
  | br | addReg | addImm | st | jsr | jsrr | andReg | andImm | str | rti | not | jmp | reserved | lea =>
    exact fun s => ⟨_, rfl⟩

theorem fetchExecute_answers : Answers fetchExecute := by
  intro s
  rcases fetchExecute_cases s with ⟨_, e⟩ | ⟨ir, u, _, e⟩
  · exact ⟨_, e⟩
  · exact e ▸ exec_answers (decode ir) _

theorem resume_answers (h : Hold) : Answers (resume h) := by
  cases h with
  | fetch => exact fetchExecute_answers
  | load dr => exact fun s => loadFrom_answers dr _ s
  | ldiPointer dr => exact fun s => ldiFrom_answers dr _ s
  | stiPointer sr => exact fun s => stiFrom_answers sr _ s
  | puts a => exact fun s => ⟨_, rfl⟩
  | getc => exact getcService_answers
  | inTake => exact inTakeAndEcho_answers

/-- Settles O45: of the four things a step can do, all but the last answer. -/
theorem stepIsTotalButHalted : Obligations.StepIsTotalButHalted := by
  unfold Obligations.StepIsTotalButHalted
  intro s
  refine ⟨fun h => step_of_halted h.1 h.2, fun hnot => ?_⟩
  rcases step_cases s with ⟨h, _, e⟩ | ⟨_, _, _, e⟩ | ⟨_, _, _, e⟩ | ⟨hhold, hrun, _⟩
  · exact e ▸ resume_answers h _
  · exact ⟨_, e⟩
  · exact e ▸ fetchExecute_answers s
  · exact absurd ⟨hhold, hrun⟩ hnot

end Sys2Proof.Machine
end

section
/-! PROOF. What every step does to the input, the console and the build (10_state.md R32 to R35), by what each part of a cycle
does to them. -/

namespace Sys2Proof.Machine

/-- What every part of a cycle does to the input, the console and the build, and to memory and flags as far as the
invariant looks at them: units are taken oldest first and recorded, the console grows at its end, memory stays in
canonical form, and `cond` stays or becomes the flag of a value. -/
structure Advances (s t : State) : Prop where
  input : ∃ k, s.inq = k ++ t.inq ∧ t.taken = s.taken ++ k
  out : ∃ emitted, t.out = s.out ++ emitted
  stopReq : t.stopReq = s.stopReq
  config : t.config = s.config
  memory : s.mem.wf = true → t.mem.wf = true
  cond : t.cond = s.cond ∨ ∃ v, t.cond = condOf v

theorem Advances.trans {s t u : State} (h : Advances s t) (h' : Advances t u) : Advances s u := by
  obtain ⟨k, hk, hk'⟩ := h.input
  obtain ⟨l, hl, hl'⟩ := h'.input
  obtain ⟨em, hem⟩ := h.out
  obtain ⟨en, hen⟩ := h'.out
  refine ⟨⟨k ++ l, ?_, ?_⟩, ⟨em ++ en, ?_⟩, h'.stopReq.trans h.stopReq, h'.config.trans h.config,
    fun hwf => h'.memory (h.memory hwf), ?_⟩
  · rw [hk, hl, List.append_assoc]
  · rw [hl', hk', List.append_assoc]
  · rw [hen, hem, List.append_assoc]
  · rcases h'.cond with e | hflag
    · exact e ▸ h.cond
    · exact .inr hflag

theorem Advances.refl (s : State) : Advances s s :=
  ⟨⟨[], rfl, (List.append_nil _).symm⟩, ⟨[], (List.append_nil _).symm⟩, rfl, rfl, id, .inl rfl⟩

/-- Registers, pc, run flag and hold are nothing that `Advances` looks at. -/
theorem advances_of_eq {s t : State} (hinq : t.inq = s.inq) (htaken : t.taken = s.taken) (hout : t.out = s.out)
    (hstop : t.stopReq = s.stopReq) (hconfig : t.config = s.config) (hmem : t.mem = s.mem) (hcond : t.cond = s.cond) :
    Advances s t where
  input := ⟨[], hinq.symm, by rw [htaken, List.append_nil]⟩
  out := ⟨[], by rw [hout, List.append_nil]⟩
  stopReq := hstop
  config := hconfig
  memory := fun hwf => hmem ▸ hwf
  cond := .inl hcond

theorem advances_takeUnits {s : State} {k q : List Byte} (h : s.inq = k ++ q) : Advances s (s.takeUnits k q) :=
  ⟨⟨k, h, rfl⟩, ⟨[], (List.append_nil _).symm⟩, rfl, rfl, id, .inl rfl⟩

theorem advances_setOut (s : State) (emitted : List Byte) : Advances s (s.setOut (s.out ++ emitted)) :=
  ⟨⟨[], rfl, (List.append_nil _).symm⟩, ⟨emitted, rfl⟩, rfl, rfl, id, .inl rfl⟩

theorem advances_setHold (s : State) (h : Option Hold) : Advances s (s.setHold h) :=
  advances_of_eq rfl rfl rfl rfl rfl rfl rfl

theorem advances_setReg (s : State) (r : Reg) (v : Word) : Advances s (s.setReg r v) :=
  advances_of_eq rfl rfl rfl rfl rfl rfl rfl

theorem advances_setPc (s : State) (v : Word) : Advances s (s.setPc v) := advances_of_eq rfl rfl rfl rfl rfl rfl rfl

theorem advances_setRunning (s : State) (b : Bool) : Advances s (s.setRunning b) :=
  advances_of_eq rfl rfl rfl rfl rfl rfl rfl

theorem advances_writeDest (s : State) (d : Reg) (v : Word) : Advances s (s.writeDest d v) :=
  ⟨⟨[], rfl, (List.append_nil _).symm⟩, ⟨[], (List.append_nil _).symm⟩, rfl, rfl, id, .inr ⟨v, s.writeDest_cond d v⟩⟩

theorem advances_memWrite (s : State) (a v : Word) : Advances s (s.memWrite a v) :=
  ⟨⟨[], rfl, (List.append_nil _).symm⟩, ⟨[], (List.append_nil _).symm⟩, rfl, rfl,
    fun hwf => State.memWrite_wf hwf a v, .inl rfl⟩

theorem advances_memRead {s t : State} {a v : Word} (h : s.memRead a = some (v, t)) : Advances s t := by
  obtain ⟨k, q, hq, rfl⟩ := State.memRead_some h
  exact advances_takeUnits hq

theorem loadFrom_advances {dr : Reg} {a : Word} {s t : State} (ht : loadFrom dr a s = .next t) : Advances s t := by
  rcases loadFrom_cases dr a s with ⟨_, e⟩ | ⟨v, u, hread, e⟩ <;> cases ht.symm.trans e
  · exact advances_setHold s _
  · exact (advances_memRead hread).trans (advances_writeDest u dr v)

theorem ldiFrom_advances {dr : Reg} {a : Word} {s t : State} (ht : ldiFrom dr a s = .next t) : Advances s t := by
  rcases ldiFrom_cases dr a s with ⟨_, e⟩ | ⟨p, u, hread, e⟩
  · cases ht.symm.trans e
    exact advances_setHold s _
  · exact (advances_memRead hread).trans (loadFrom_advances (e.symm.trans ht))

theorem stiFrom_advances {sr : Reg} {a : Word} {s t : State} (ht : stiFrom sr a s = .next t) : Advances s t := by
  rcases stiFrom_cases sr a s with ⟨_, e⟩ | ⟨p, u, hread, e⟩ <;> cases ht.symm.trans e
  · exact advances_setHold s _
  · exact (advances_memRead hread).trans (advances_memWrite u p _)

theorem putsFrom_advances {a : Word} {s t : State} (ht : putsFrom a s = .next t) : Advances s t := by
  cases ht
  obtain ⟨k, q, _, h, e, hq, ⟨emitted, rfl⟩, _⟩ := putsLoop_frame (putsFuel s) a s
  rw [e]
  exact ((advances_takeUnits hq).trans (advances_setOut _ emitted)).trans (advances_setHold _ h)

theorem getcService_advances {s t : State} (ht : getcService s = .next t) : Advances s t := by
  rcases getcService_cases s with ⟨_, e⟩ | ⟨u, q, hq, e⟩ <;> cases ht.symm.trans e
  · exact advances_setHold s _
  · exact (advances_takeUnits hq).trans (advances_setReg _ .r0 _)

theorem inTakeAndEcho_advances {s t : State} (ht : inTakeAndEcho s = .next t) : Advances s t := by
  rcases inTakeAndEcho_cases s with ⟨_, e⟩ | ⟨u, q, hq, e⟩ <;> cases ht.symm.trans e
  · exact advances_setHold s _
  · exact ((advances_takeUnits hq).trans (advances_setOut _ [u])).trans (advances_setReg _ .r0 _)

theorem runService_advances {v : Service} {s t : State} (ht : runService v s = .next t) : Advances s t := by
  cases v with
  | getc => exact getcService_advances ht
  | out =>
    cases ht
    exact advances_setOut s _
  | puts => exact putsFrom_advances ht
  | inp =>
    rw [runService, inService, State.conPuts_eq] at ht
    exact (advances_setOut s _).trans (inTakeAndEcho_advances ht)
  | halt =>
    cases ht
    rw [State.conPuts_eq]
    exact (advances_setOut s _).trans (advances_setRunning _ false)
  | empty =>
    cases ht
    exact .refl s

theorem exec_advances {i : Instr} {s t : State} (ht : exec i s = .next t) : Advances s t := by
  cases i with
  | br nzp off9 =>
    cases ht
    split_ifs
    · exact advances_setPc s _
    · exact .refl s
  | jmp =>
    cases ht
    exact advances_setPc s _
  | jsr | jsrr =>
    cases ht
    exact (advances_setReg s linkReg s.pc).trans (advances_setPc _ _)
  | addReg | addImm | andReg | andImm | not | lea =>
    cases ht
    exact advances_writeDest s _ _
  | st | str =>
    cases ht
    exact advances_memWrite s _ _
  | rti | reserved =>
    cases ht
    exact .refl s
  | ld | ldr => exact loadFrom_advances ht
  | ldi => exact ldiFrom_advances ht
  | sti => exact stiFrom_advances ht
  | trap => exact (advances_setReg s linkReg s.pc).trans (runService_advances ht)

theorem fetchExecute_advances {s t : State} (ht : fetchExecute s = .next t) : Advances s t := by
  rcases fetchExecute_cases s with ⟨_, e⟩ | ⟨ir, u, hread, e⟩
  · cases ht.symm.trans e
    exact advances_setHold s _
  · exact ((advances_memRead hread).trans (advances_setPc u _)).trans (exec_advances (e.symm.trans ht))

theorem resume_advances {h : Hold} {s t : State} (ht : resume h s = .next t) : Advances s t := by
  cases h with
  | fetch => exact fetchExecute_advances ht
  | load => exact loadFrom_advances ht
  | ldiPointer => exact ldiFrom_advances ht
  | stiPointer => exact stiFrom_advances ht
  | puts => exact putsFrom_advances ht
  | getc => exact getcService_advances ht
  | inTake => exact inTakeAndEcho_advances ht

theorem step_advances {s t : State} (ht : step s = .next t) : Advances s t := by
  rcases step_cases s with ⟨h, _, e⟩ | ⟨_, _, _, e⟩ | ⟨_, _, _, e⟩ | ⟨_, _, e⟩
  · exact (advances_setHold s none).trans (resume_advances (e.symm.trans ht))
  · cases ht.symm.trans e
    exact advances_setRunning s false
  · exact fetchExecute_advances (e.symm.trans ht)
  · cases ht.symm.trans e

/-- Settles O55: what `Advances` says of the environment's state. -/
theorem inputInOrderConsoleAppends : Obligations.InputInOrderConsoleAppends := by
  unfold Obligations.InputInOrderConsoleAppends
  intro s t ht
  obtain ⟨hinput, hout, hstop, hconfig, _, _⟩ := step_advances ht
  exact ⟨hinput, hout, hstop, hconfig⟩

end Sys2Proof.Machine
end

section
/-! PROOF. The stop request is seen at a boundary alone: no meaning looks at it (10_state.md R34). -/

namespace Sys2Proof.Machine

/-- A meaning that neither looks at the stop request nor changes it. -/
def IgnoresStopReq (f : State → Result) : Prop :=
  ∀ (s : State) (b : Bool), f (s.setStopReq b) = mapNext (fun t => t.setStopReq b) (f s)

theorem State.inTake_setStopReq (s : State) (b : Bool) :
    (s.setStopReq b).inTake = s.inTake.map fun r => (r.1, r.2.setStopReq b) := by
  rcases s.inTake_cases with ⟨hq, e⟩ | ⟨u, q, hq, e⟩ <;> rw [e]
  · exact State.inTake_nil (s := s.setStopReq b) hq
  · exact State.inTake_cons (s := s.setStopReq b) hq

theorem State.conPuts_setStopReq (s : State) (bs : List Byte) (b : Bool) :
    (s.setStopReq b).conPuts bs = (s.conPuts bs).setStopReq b := by
  rw [State.conPuts_eq, State.conPuts_eq]
  rfl

theorem loadFrom_ignoresStopReq (dr : Reg) (a : Word) : IgnoresStopReq (loadFrom dr a) := by
  intro s b
  simp only [loadFrom, State.memRead_setStopReq]
  cases s.memRead a with
  | none => rfl
  | some r => rfl

theorem ldiFrom_ignoresStopReq (dr : Reg) (a : Word) : IgnoresStopReq (ldiFrom dr a) := by
  intro s b
  simp only [ldiFrom, State.memRead_setStopReq]
  cases s.memRead a with
  | none => rfl
  | some r => exact loadFrom_ignoresStopReq dr r.1 r.2 b

theorem stiFrom_ignoresStopReq (sr : Reg) (a : Word) : IgnoresStopReq (stiFrom sr a) := by
  intro s b
  simp only [stiFrom, State.memRead_setStopReq]
  cases s.memRead a with
  | none => rfl
  | some r => rfl

theorem putsLoop_setStopReq (b : Bool) : ∀ (fuel : Nat) (a : Word) (s : State),
    putsLoop fuel a (s.setStopReq b) = (putsLoop fuel a s).setStopReq b
  | 0, _, _ => rfl
  | fuel + 1, a, s => by
    simp only [putsLoop, State.memRead_setStopReq]
    cases s.memRead a with
    | none => rfl
    | some r =>
      simp only [Option.map_some]
      split_ifs
      · rfl
      · exact putsLoop_setStopReq b fuel (a + 1) (r.2.conPut (lowByte r.1))

theorem putsFrom_ignoresStopReq (a : Word) : IgnoresStopReq (putsFrom a) := fun s b =>
  congrArg Host.Outcome.next (putsLoop_setStopReq b (putsFuel s) a s)

theorem getcService_ignoresStopReq : IgnoresStopReq getcService := by
  intro s b
  simp only [getcService, State.inTake_setStopReq]
  cases s.inTake with
  | none => rfl
  | some r => rfl

theorem inTakeAndEcho_ignoresStopReq : IgnoresStopReq inTakeAndEcho := by
  intro s b
  simp only [inTakeAndEcho, State.inTake_setStopReq]
  cases s.inTake with
  | none => rfl
  | some r => rfl

theorem runService_ignoresStopReq (v : Service) : IgnoresStopReq (runService v) := by
  cases v with
  | getc => exact getcService_ignoresStopReq
  | out | empty => exact fun _ _ => rfl
  | puts => exact fun s => putsFrom_ignoresStopReq (s.reg .r0) s
  | inp =>
    intro s b
    simp only [runService, inService, State.setStopReq_config, State.conPuts_setStopReq]
    exact inTakeAndEcho_ignoresStopReq _ b
  | halt =>
    intro s b
    simp only [runService, haltService, State.setStopReq_config, State.conPuts_setStopReq]
    rfl

/-- No instruction looks at the stop request (10_state.md R34). -/
theorem exec_ignoresStopReq (i : Instr) : IgnoresStopReq (exec i) := by
  cases i with
  | br nzp off9 =>
    exact fun s b => congrArg Host.Outcome.next
      (apply_ite (fun t : State => t.setStopReq b) (condTest nzp s.cond = true) (s.setPc (s.pcRel9 off9)) s).symm
  | ld dr off9 => exact fun s => loadFrom_ignoresStopReq dr (s.pcRel9 off9) s
  | ldr dr base off6 => exact fun s => loadFrom_ignoresStopReq dr (s.base6 base off6) s
  | ldi dr off9 => exact fun s => ldiFrom_ignoresStopReq dr (s.pcRel9 off9) s
  | sti sr off9 => exact fun s => stiFrom_ignoresStopReq sr (s.pcRel9 off9) s
  | trap vect8 ign => exact fun s => runService_ignoresStopReq (trapTable vect8) s.trapEntry
  | addReg | addImm | st | jsr | jsrr | andReg | andImm | str | rti | not | jmp | reserved | lea => exact fun _ _ => rfl

theorem fetchExecute_ignoresStopReq : IgnoresStopReq fetchExecute := by
  intro s b
  simp only [fetchExecute, State.setStopReq_pc, State.memRead_setStopReq]
  cases s.memRead s.pc with
  | none => rfl
  | some r => exact exec_ignoresStopReq (decode r.1) (r.2.setPc (r.2.pc + 1)) b

/-- The rest of a held cycle does not look at it either. -/
theorem resume_ignoresStopReq (h : Hold) : IgnoresStopReq (resume h) := by
  cases h with
  | fetch => exact fetchExecute_ignoresStopReq
  | load dr => exact fun s => loadFrom_ignoresStopReq dr s.config.kbdrAddress s
  | ldiPointer dr => exact fun s => ldiFrom_ignoresStopReq dr s.config.kbdrAddress s
  | stiPointer sr => exact fun s => stiFrom_ignoresStopReq sr s.config.kbdrAddress s
  | puts a => exact putsFrom_ignoresStopReq a
  | getc => exact getcService_ignoresStopReq
  | inTake => exact inTakeAndEcho_ignoresStopReq

/-- Settles O44: the boundary alone reads the request. -/
theorem stopRequestOnlyAtBoundary : Obligations.StopRequestOnlyAtBoundary := by
  unfold Obligations.StopRequestOnlyAtBoundary
  intro s
  refine ⟨step_of_stopReq, fun hhold b => ?_, fun i b => exec_ignoresStopReq i s b⟩
  obtain ⟨h, hh⟩ := Option.ne_none_iff_exists'.1 hhold
  rw [step_of_hold hh, step_of_hold (s := s.setStopReq b) hh]
  exact resume_ignoresStopReq h (s.setHold none) b

end Sys2Proof.Machine
end

section
/-! PROOF. How a held cycle goes on when a unit is pending, and that a hold and then an arrival is the arrival first
(40_instruction_cycle.md R125; 00_scope.md R10). -/

namespace Sys2Proof.Machine

/-! ## A held cycle with a unit pending -/

/-- The read of KBDR with a unit pending, as the cycle that held makes it again. -/
theorem memRead_kbdr_tookUnit {s : State} {u : Byte} {q : List Byte} (hlegal : s.config.legal = true)
    (hq : s.inq = u :: q) :
    (s.setHold none).memRead s.config.kbdrAddress = some (zext16 u, s.tookUnit u q) :=
  State.memRead_kbdr_unit (s := s.setHold none) (kbsr_ne_kbdr_of_legal hlegal).symm rfl hq

theorem zext16_ne_zero {u : Byte} (hu : u ≠ 0) : zext16 u ≠ 0 := by
  bv_omega

theorem lowByte_zext16 (u : Byte) : lowByte (zext16 u) = u := by
  bv_omega

/-- PUTS at KBDR ends at a zero unit. -/
theorem putsFrom_kbdr_zero {s : State} {q : List Byte} (hlegal : s.config.legal = true) (hq : s.inq = 0 :: q) :
    putsFrom s.config.kbdrAddress s = .next (s.takeUnits [0] q) := by
  have hread := State.memRead_kbdr_unit (kbsr_ne_kbdr_of_legal hlegal).symm rfl hq
  have hfuel := putsMeasure_lt_putsFuel s.config.kbdrAddress s
  obtain ⟨fuel, hf⟩ := Nat.exists_eq_succ_of_ne_zero (Nat.ne_of_gt (Nat.zero_lt_of_lt hfuel))
  simp only [putsFrom, hf, putsLoop, hread]
  rfl

/-- PUTS at KBDR writes any other unit and goes on as from the next address: the fuel it has left and the fuel it would
start with there are both enough. -/
theorem putsFrom_kbdr_unit {s : State} {u : Byte} {q : List Byte} (hlegal : s.config.legal = true)
    (hq : s.inq = u :: q) (hu : u ≠ 0) :
    putsFrom s.config.kbdrAddress s = putsFrom (s.config.kbdrAddress + 1) ((s.takeUnits [u] q).conPut u) := by
  have hread := State.memRead_kbdr_unit (kbsr_ne_kbdr_of_legal hlegal).symm rfl hq
  have hnext := putsMeasure_next hlegal hread u
  have hfuel := putsMeasure_lt_putsFuel s.config.kbdrAddress s
  obtain ⟨fuel, hf⟩ := Nat.exists_eq_succ_of_ne_zero (Nat.ne_of_gt (Nat.zero_lt_of_lt hfuel))
  simp only [putsFrom, hf, putsLoop, hread, zext16_ne_zero hu, if_false, lowByte_zext16]
  refine congrArg Host.Outcome.next (putsLoop_fuel_eq _ _ _ _ hlegal (by omega) (putsMeasure_lt_putsFuel _ _))

/-- Settles O42: each hold point makes its read or its `InTake` again, which completes now. -/
theorem heldCycleGoesOn : Obligations.HeldCycleGoesOn := by
  unfold Obligations.HeldCycleGoesOn
  intro s u q hlegal hq
  have hread := memRead_kbdr_tookUnit hlegal hq
  rw [ofNat_toNat_byte]
  refine ⟨fun hh hpc => ?fetch, fun dr hh => ?load, fun sr hh hwf => ?stiPointer, fun dr hh => ?ldiPointer,
    fun a hh ha => ?puts, fun hh => ?getc, fun hh => ?inTake⟩ <;> rw [step_of_hold hh]
  case fetch =>
    exact fetchExecute_of_some (s := s.setHold none) (hpc ▸ hread)
  case load => exact loadFrom_wrote dr hread
  case stiPointer => exact stiFrom_stored sr (s := s.setHold none) hwf hread
  case ldiPointer =>
    have hgo : resume (.ldiPointer dr) (s.setHold none) = loadFrom dr (zext16 u) (s.tookUnit u q) :=
      ldiFrom_of_some dr hread
    rw [hgo]
    exact ⟨fun v w h => loadFrom_wrote dr h, loadFrom_of_none dr⟩
  case puts =>
    subst ha
    refine ⟨?_, fun hu => ?_⟩
    · rintro rfl
      exact putsFrom_kbdr_zero (s := s.setHold none) hlegal hq
    · have hgo : resume (.puts s.config.kbdrAddress) (s.setHold none) =
          putsFrom (s.config.kbdrAddress + 1) ((s.tookUnit u q).conPut u) :=
        putsFrom_kbdr_unit (s := s.setHold none) hlegal hq hu
      refine ⟨hgo, ?_⟩
      obtain ⟨k, p, emitted, h, e, hk, hend⟩ :=
        putsFrom_streams (s.config.kbdrAddress + 1) (s := (s.tookUnit u q).conPut u) hlegal
      refine ⟨_, emitted, hgo.trans e, ?_, fun _ => rfl, rfl, rfl, fun _ => rfl, rfl, ⟨k, hk, ?_⟩, hend⟩
      · exact List.append_assoc s.out [u] emitted
      · exact List.append_assoc s.taken [u] k
  case getc =>
    exact ⟨_, getcService_of_cons (s := s.setHold none) hq, State.reg_setReg_same _ _ _,
      fun r hr => State.reg_setReg_other _ _ _ _ hr, rfl, rfl, rfl, rfl, rfl, rfl, fun _ => rfl⟩
  case inTake =>
    exact ⟨_, inTakeAndEcho_of_cons (s := s.setHold none) hq, State.reg_setReg_same _ _ _,
      fun r hr => State.reg_setReg_other _ _ _ _ hr, rfl, rfl, rfl, rfl, rfl, rfl, fun _ => rfl⟩

/-! ## A hold and then an arrival -/

theorem State.setHold_eq_self {s : State} {h : Option Hold} (hh : s.hold = h) : s.setHold h = s := by
  rw [← hh, State.setHold_same]

/-- The step after an arrival in a hold is the rest of the cycle from the state before the hold, the unit pending. -/
theorem step_holdAt_deliver {s : State} (hhold : s.hold = none) (h : Hold) (u : Byte) :
    step ((s.holdAt h).deliver u) = resume h (s.deliver u) := by
  have hstate : ((s.holdAt h).deliver u).setHold none = s.deliver u :=
    congrArg (fun t : State => t.deliver u) (State.setHold_eq_self hhold)
  rw [step_of_hold (s := (s.holdAt h).deliver u) rfl, hstate]

/-- A meaning that holds at `h` and is gone on with by `resume h` comes to the same state as with the unit there first. -/
theorem hold_then_arrival {f : State → Result} {s t : State} {h : Hold} {u : Byte} (hhold : t.hold = none)
    (hholds : f s = .next (t.holdAt h)) (hresume : resume h (t.deliver u) = f (s.deliver u)) :
    ∃ r, f s = .next r ∧ step (r.deliver u) = f (s.deliver u) :=
  ⟨_, hholds, (step_holdAt_deliver hhold h u).trans hresume⟩

/-- Settles O49: in each case the hold point's read or `InTake` is the one the meaning makes with the unit pending. -/
theorem holdThenArrivalIsArrivalFirst : Obligations.HoldThenArrivalIsArrivalFirst := by
  unfold Obligations.HoldThenArrivalIsArrivalFirst
  intro s u hhold hq hlegal
  have hread {a : Word} (ha : a = s.config.kbdrAddress) : s.memRead a = none :=
    State.memRead_kbdr_empty (ha ▸ (kbsr_ne_kbdr_of_legal hlegal).symm) ha hq
  refine ⟨fun ign => ?getc, fun ign => ?inp, fun dr off9 ha => ?ld, fun dr base off6 ha => ?ldr,
    fun dr off9 ha => ?ldiPointer, fun dr off9 hplain hcell => ?ldiData, fun sr off9 ha => ?sti,
    fun hrun hstop hpc => ?fetch⟩
  case getc =>
    exact hold_then_arrival (f := exec (.trap 0x20 ign)) (t := s.trapEntry) hhold
      (getcService_of_nil (s := s.trapEntry) hq) rfl
  case inp =>
    exact hold_then_arrival (f := exec (.trap 0x23 ign)) (t := s.trapEntry.setOut (s.out ++ s.config.inPrompt)) hhold
      ((exec_in ign s).trans (inTakeAndEcho_of_nil (s := s.trapEntry.setOut _) hq)) (exec_in ign (s.deliver u)).symm
  case ld =>
    exact hold_then_arrival (f := exec (.ld dr off9)) hhold (loadFrom_of_none dr (hread ha))
      (congrArg (fun a => loadFrom dr a (s.deliver u)) ha.symm)
  case ldr =>
    exact hold_then_arrival (f := exec (.ldr dr base off6)) hhold (loadFrom_of_none dr (hread ha))
      (congrArg (fun a => loadFrom dr a (s.deliver u)) ha.symm)
  case ldiPointer =>
    exact hold_then_arrival (f := exec (.ldi dr off9)) hhold (ldiFrom_of_none dr (hread ha))
      (congrArg (fun a => ldiFrom dr a (s.deliver u)) ha.symm)
  case ldiData =>
    simp only [State.intercepted, Bool.or_eq_false_iff, beq_eq_false_iff_ne] at hplain
    have hpointer (t : State) (hconfig : t.config = s.config) (hmem : t.mem = s.mem) :
        t.memRead (s.pc + off9.signExtend 16) = some (s.config.kbdrAddress, t) := by
      rw [State.memRead_plain (hconfig ▸ hplain.1) (hconfig ▸ hplain.2), State.cell_congr hmem, hcell]
    exact hold_then_arrival (f := exec (.ldi dr off9)) hhold
      ((ldiFrom_of_some dr (hpointer s rfl rfl)).trans (loadFrom_of_none dr (hread rfl)))
      (ldiFrom_of_some dr (hpointer (s.deliver u) rfl rfl)).symm
  case sti =>
    exact hold_then_arrival (f := exec (.sti sr off9)) hhold (stiFrom_of_none sr (hread ha))
      (congrArg (fun a => stiFrom sr a (s.deliver u)) ha.symm)
  case fetch =>
    exact hold_then_arrival (f := step) hhold
      ((step_of_running hhold hrun hstop).trans (fetchExecute_of_none (hread hpc)))
      (step_of_running (s := s.deliver u) hhold hrun hstop).symm

end Sys2Proof.Machine
end

section
/-! PROOF. How a held core waits, and a HALTED one (60_exceptions.md R256). -/

namespace Sys2Proof.Machine

theorem holdLegal_of_none {s : State} (h : s.hold = none) : s.holdLegal = true := by
  simp only [State.holdLegal, h]

/-- The holds of a data or pointer read: the core is running, and no more is asked of them. -/
def Hold.IsRead (h : Hold) : Prop := ∃ r, h = .load r ∨ h = .ldiPointer r ∨ h = .stiPointer r

theorem holdLegal_of_read {s : State} {h : Hold} (hread : h.IsRead) (hh : s.hold = some h) (hrun : s.running = true) :
    s.holdLegal = true := by
  obtain ⟨r, rfl | rfl | rfl⟩ := hread <;> simp only [State.holdLegal, hh, hrun]

/-- A held core is running. -/
theorem running_of_holdLegal {s : State} (hlegal : s.holdLegal = true) (hh : s.hold ≠ none) : s.running = true := by
  obtain ⟨h, hh⟩ := Option.ne_none_iff_exists'.1 hh
  cases h <;> simp only [State.holdLegal, hh, Bool.and_eq_true] at hlegal
  case load | ldiPointer | stiPointer => exact hlegal
  case fetch | getc => exact hlegal.1
  case puts | inTake => exact hlegal.1.1

/-! ## A held cycle with nothing pending -/

/-- With nothing pending the rest of a held cycle holds where the cycle held. -/
theorem resume_holds_again {s : State} {h : Hold} (hinv : s.Inv) (hh : s.hold = some h) (hq : s.inq = []) :
    resume h (s.setHold none) = .next ((s.setHold none).holdAt h) := by
  have hread : (s.setHold none).memRead s.config.kbdrAddress = none :=
    State.memRead_kbdr_empty (s := s.setHold none) (kbsr_ne_kbdr_of_legal hinv.config).symm rfl hq
  have hlegal := hinv.hold
  cases h with
  | fetch =>
    simp only [State.holdLegal, hh, Bool.and_eq_true, beq_iff_eq] at hlegal
    exact fetchExecute_of_none (s := s.setHold none) (hlegal.2 ▸ hread)
  | load dr => exact loadFrom_of_none dr hread
  | ldiPointer dr => exact ldiFrom_of_none dr hread
  | stiPointer sr => exact stiFrom_of_none sr hread
  | puts a =>
    simp only [State.holdLegal, hh, Bool.and_eq_true, beq_iff_eq] at hlegal
    obtain ⟨fuel, hf⟩ := Nat.exists_eq_succ_of_ne_zero
      (Nat.ne_of_gt (Nat.zero_lt_of_lt (putsMeasure_lt_putsFuel a (s.setHold none))))
    have hread' : (s.setHold none).memRead a = none := hlegal.2 ▸ hread
    simp only [resume, putsFrom, hf, putsLoop, hread']
  | getc => exact getcService_of_nil (s := s.setHold none) hq
  | inTake => exact inTakeAndEcho_of_nil (s := s.setHold none) hq

theorem step_waits {s : State} (hinv : s.Inv) (hhold : s.hold ≠ none) (hq : s.inq = []) : step s = .next s := by
  obtain ⟨h, hh⟩ := Option.ne_none_iff_exists'.1 hhold
  rw [step_of_hold hh, resume_holds_again hinv hh hq]
  exact congrArg Host.Outcome.next (State.setHold_eq_self hh)

/-- What can happen to a system that is waiting or HALTED, beside a step or a reset: an arrival, or the stop request. The
host's ports are closed, for the core has run. -/
theorem apply_outside {y z : System} {e : Event} (hstarted : y.started = true) (hcycle : e ≠ .cycle)
    (hreset : e ≠ .reset) (hz : y.apply e = some z) :
    (∃ u, e = .deliver u ∧ z.core = y.core.deliver u) ∨ ∃ b, z.core = y.core.setStopReq b := by
  cases e with
  | cycle => exact absurd rfl hcycle
  | reset => exact absurd rfl hreset
  | deliver u =>
    cases hz
    exact .inl ⟨u, rfl, rfl⟩
  | raiseStop =>
    cases hz
    exact .inr ⟨true, rfl⟩
  | lowerStop =>
    cases hz
    exact .inr ⟨false, rfl⟩
  | hostWrite a v => simp [System.apply, hstarted] at hz
  | hostSetPc v => simp [System.apply, hstarted] at hz

/-- The system after a step of its core. -/
theorem apply_cycle {y z : System} (hz : y.apply .cycle = some z) :
    ∃ t, step y.core = .next t ∧ z = { y with core := t, started := true } := by
  cases h : step y.core with
  | next t =>
    simp only [System.apply, h, Option.some.injEq] at hz
    exact ⟨t, rfl, hz.symm⟩
  | fault r => simp [System.apply, h] at hz
  | refused r => simp [System.apply, h] at hz

/-- Settles O43: a core that holds or is HALTED has run, so the host's ports are closed; a held one with nothing pending
steps to itself, and a HALTED one is at a boundary and has no step. -/
theorem heldCoreWaits : Obligations.HeldCoreWaits := by
  unfold Obligations.HeldCoreWaits
  refine ⟨fun s => step_waits, fun y z e hinv hhold hz => ?_, fun y z e hinv hhalted hz => ?_⟩
  · have hstarted : y.started = true := by
      by_contra h
      exact hhold (hinv.unstarted (Bool.eq_false_of_not_eq_true h)).1
    by_cases hcycle : e = .cycle
    · subst hcycle
      by_cases hq : y.core.inq = []
      · obtain ⟨t, ht, rfl⟩ := apply_cycle hz
        cases ht.symm.trans (step_waits hinv.core hhold hq)
        exact .inr (.inr ⟨y.core.stopReq, rfl⟩)
      · exact .inl ⟨rfl, hq⟩
    · refine .inr (apply_outside hstarted hcycle ?_ hz)
      rintro rfl
      simp [System.apply, Option.isSome_iff_ne_none.2 hhold] at hz
  · have hstarted : y.started = true := by
      by_contra h
      exact absurd (hinv.unstarted (Bool.eq_false_of_not_eq_true h)).2 (by simp [hhalted])
    have hhold : y.core.hold = none := by
      by_contra h
      exact absurd (running_of_holdLegal hinv.core.hold h) (by simp [hhalted])
    by_cases hreset : e = .reset
    · subst hreset
      simp only [System.apply, hhold, Option.isSome_none, Bool.false_eq_true, if_false, Option.some.injEq] at hz
      exact .inl ⟨rfl, hz ▸ rfl⟩
    · refine .inr (apply_outside hstarted ?_ hreset hz)
      rintro rfl
      obtain ⟨t, ht, _⟩ := apply_cycle hz
      cases ht.symm.trans (step_of_halted hhold hhalted)

end Sys2Proof.Machine
end

section
/-! PROOF. The invariant of the core and of the system: every step keeps it, launch meets it (10_state.md R24, R40), and so does
every run (R30 to R35). -/

namespace Sys2Proof.Machine

/-- A core that runs and does not hold. -/
structure Unheld (s : State) : Prop where
  hold : s.hold = none
  running : s.running = true

theorem unheld_memRead {s t : State} {a v : Word} (hs : Unheld s) (h : s.memRead a = some (v, t)) : Unheld t :=
  ⟨(State.memRead_hold h).trans hs.hold, (State.memRead_running h).trans hs.running⟩

theorem loadFrom_holdLegal {dr : Reg} {a : Word} {s t : State} (hs : Unheld s) (ht : loadFrom dr a s = .next t) :
    t.holdLegal = true := by
  rcases loadFrom_cases dr a s with ⟨_, e⟩ | ⟨v, u, hread, e⟩ <;> cases ht.symm.trans e
  · exact holdLegal_of_read ⟨dr, .inl rfl⟩ rfl hs.running
  · exact holdLegal_of_none ((u.writeDest_hold dr v).trans (unheld_memRead hs hread).hold)

theorem ldiFrom_holdLegal {dr : Reg} {a : Word} {s t : State} (hs : Unheld s) (ht : ldiFrom dr a s = .next t) :
    t.holdLegal = true := by
  rcases ldiFrom_cases dr a s with ⟨_, e⟩ | ⟨p, u, hread, e⟩
  · cases ht.symm.trans e
    exact holdLegal_of_read ⟨dr, .inr (.inl rfl)⟩ rfl hs.running
  · exact loadFrom_holdLegal (unheld_memRead hs hread) (e.symm.trans ht)

theorem stiFrom_holdLegal {sr : Reg} {a : Word} {s t : State} (hs : Unheld s) (ht : stiFrom sr a s = .next t) :
    t.holdLegal = true := by
  rcases stiFrom_cases sr a s with ⟨_, e⟩ | ⟨p, u, hread, e⟩ <;> cases ht.symm.trans e
  · exact holdLegal_of_read ⟨sr, .inr (.inr rfl)⟩ rfl hs.running
  · exact holdLegal_of_none ((u.memWrite_hold p _).trans (unheld_memRead hs hread).hold)

theorem getcService_holdLegal {s t : State} (hs : Unheld s) (hlink : s.reg linkReg = s.pc)
    (ht : getcService s = .next t) : t.holdLegal = true := by
  rcases getcService_cases s with ⟨_, e⟩ | ⟨u, q, _, e⟩ <;> cases ht.symm.trans e
  · simp [State.holdLegal, hs.running, hlink]
  · exact holdLegal_of_none hs.hold

theorem inTakeAndEcho_holdLegal {s t : State} (hs : Unheld s) (hlink : s.reg linkReg = s.pc)
    (hprompt : s.config.inPrompt <:+ s.out) (ht : inTakeAndEcho s = .next t) : t.holdLegal = true := by
  rcases inTakeAndEcho_cases s with ⟨_, e⟩ | ⟨u, q, _, e⟩ <;> cases ht.symm.trans e
  · simp [State.holdLegal, hs.running, hlink, hprompt]
  · exact holdLegal_of_none hs.hold

theorem putsFrom_holdLegal {a : Word} {s t : State} (hs : Unheld s) (hlink : s.reg linkReg = s.pc)
    (hlegal : s.config.legal = true) (ht : putsFrom a s = .next t) : t.holdLegal = true := by
  obtain ⟨k, q, emitted, h, e, _, hend⟩ := putsFrom_streams a hlegal
  cases ht.symm.trans e
  rcases hend with hnone | ⟨rfl, _⟩
  · exact holdLegal_of_none (hnone.trans hs.hold)
  · simp [State.holdLegal, hs.running, hlink]

theorem runService_holdLegal {v : Service} {s t : State} (hs : Unheld s) (hlink : s.reg linkReg = s.pc)
    (hlegal : s.config.legal = true) (ht : runService v s = .next t) : t.holdLegal = true := by
  cases v with
  | getc => exact getcService_holdLegal hs hlink ht
  | puts => exact putsFrom_holdLegal hs hlink hlegal ht
  | inp =>
    rw [runService, inService, State.conPuts_eq] at ht
    exact inTakeAndEcho_holdLegal (s := s.setOut (s.out ++ s.config.inPrompt)) ⟨hs.hold, hs.running⟩ hlink
      (List.suffix_append _ _) ht
  | out | empty =>
    cases ht
    exact holdLegal_of_none hs.hold
  | halt =>
    cases ht
    rw [State.conPuts_eq]
    exact holdLegal_of_none hs.hold

theorem exec_holdLegal {i : Instr} {s t : State} (hs : Unheld s) (hlegal : s.config.legal = true)
    (ht : exec i s = .next t) : t.holdLegal = true := by
  cases i with
  | br nzp off9 =>
    obtain ⟨u, e, hjumped⟩ := execBr_jumped nzp off9 s
    cases ht.symm.trans e
    exact holdLegal_of_none (hjumped.rest.hold.trans hs.hold)
  | ld | ldr => exact loadFrom_holdLegal hs ht
  | ldi => exact ldiFrom_holdLegal hs ht
  | sti => exact stiFrom_holdLegal hs ht
  | trap => exact runService_holdLegal (s := s.trapEntry) ⟨hs.hold, hs.running⟩ s.reg_trapEntry_link hlegal ht
  | addReg | addImm | st | jsr | jsrr | andReg | andImm | str | rti | not | jmp | reserved | lea =>
    cases ht
    exact holdLegal_of_none hs.hold

/-- A fetch that holds is one at KBDR. -/
theorem fetchExecute_holdLegal {s t : State} (hs : Unheld s) (hlegal : s.config.legal = true)
    (ht : fetchExecute s = .next t) : t.holdLegal = true := by
  rcases fetchExecute_cases s with ⟨hread, e⟩ | ⟨ir, u, hread, e⟩
  · cases ht.symm.trans e
    simp [State.holdLegal, hs.running, (State.memRead_none hread).1]
  · obtain ⟨hhold, hrun⟩ := unheld_memRead hs hread
    have hconfig := (advances_memRead hread).config
    exact exec_holdLegal (s := u.setPc (s.pc + 1)) ⟨hhold, hrun⟩ (hconfig ▸ hlegal) (e.symm.trans ht)

/-- What is asked of the hold point stays true of the rest of the cycle, which may hold again. -/
theorem resume_holdLegal {s t : State} {h : Hold} (hinv : s.Inv) (hh : s.hold = some h)
    (ht : resume h (s.setHold none) = .next t) : t.holdLegal = true := by
  have hrun : s.running = true := running_of_holdLegal hinv.hold (by simp [hh])
  have hs : Unheld (s.setHold none) := ⟨rfl, hrun⟩
  have hlegal := hinv.hold
  cases h with
  | fetch => exact fetchExecute_holdLegal hs hinv.config ht
  | load => exact loadFrom_holdLegal hs ht
  | ldiPointer => exact ldiFrom_holdLegal hs ht
  | stiPointer => exact stiFrom_holdLegal hs ht
  | puts a =>
    simp only [State.holdLegal, hh, Bool.and_eq_true, beq_iff_eq] at hlegal
    obtain ⟨⟨_, hlink⟩, _⟩ := hlegal
    exact putsFrom_holdLegal hs hlink hinv.config ht
  | getc =>
    simp only [State.holdLegal, hh, Bool.and_eq_true, beq_iff_eq] at hlegal
    exact getcService_holdLegal hs hlegal.2 ht
  | inTake =>
    simp only [State.holdLegal, hh, Bool.and_eq_true, beq_iff_eq, List.isSuffixOf_iff_suffix] at hlegal
    obtain ⟨⟨_, hlink⟩, hprompt⟩ := hlegal
    exact inTakeAndEcho_holdLegal hs hlink hprompt ht

theorem step_holdLegal {s t : State} (hinv : s.Inv) (ht : step s = .next t) : t.holdLegal = true := by
  rcases step_cases s with ⟨h, hh, e⟩ | ⟨hhold, _, _, e⟩ | ⟨hhold, hrun, _, e⟩ | ⟨_, _, e⟩
  · exact resume_holdLegal hinv hh (e.symm.trans ht)
  · cases ht.symm.trans e
    exact holdLegal_of_none hhold
  · exact fetchExecute_holdLegal ⟨hhold, hrun⟩ hinv.config (e.symm.trans ht)
  · cases ht.symm.trans e

theorem condLegal_of_advances {s t : State} (h : Advances s t) (hs : s.condLegal = true) : t.condLegal = true := by
  rcases h.cond with e | ⟨v, e⟩
  · simpa only [State.condLegal, e, h.config] using hs
  · rcases condOf_oneFlag v with e' | e' | e' <;> simp [State.condLegal, e, e']

/-- Settles O59: the parameters, memory and `cond` by `step_advances`, the hold by `step_holdLegal`. -/
theorem stepKeepsInvariant : Obligations.StepKeepsInvariant := by
  unfold Obligations.StepKeepsInvariant
  intro s t hinv ht
  have h := step_advances ht
  exact ⟨h.config.symm ▸ hinv.config, h.memory hinv.memory, condLegal_of_advances h hinv.cond, step_holdLegal hinv ht⟩

/-! ## Reset and launch -/

/-- Settles O56: every field of the launch state. -/
theorem resetLeaves : Obligations.ResetLeaves := by
  unfold Obligations.ResetLeaves
  refine fun s => ⟨fun r => ?_, fun _ => rfl, rfl, rfl, rfl, rfl, rfl, rfl, rfl, rfl, rfl⟩
  cases r <;> rfl

theorem launch_inv {c : Config} (q : List Byte) (b : Bool) (hlegal : c.legal = true) : (State.launch c q b).Inv where
  config := hlegal
  memory := rfl
  cond := by
    simp only [Config.legal, Bool.and_eq_true, Bool.or_eq_true, beq_iff_eq] at hlegal
    rcases hlegal.2 with e | e <;> simp [State.condLegal, State.launch, e]
  hold := rfl

/-- Settles O58: the launch state of any legal build, of which the default is one. -/
theorem launchMeetsInvariant : Obligations.LaunchMeetsInvariant := by
  unfold Obligations.LaunchMeetsInvariant
  exact ⟨fun c q b => launch_inv q b, launch_inv [] false (by decide)⟩

/-! ## Every run keeps the system's invariant -/

/-- An update outside what the invariant of the core looks at. -/
theorem State.Inv.of_eq {s t : State} (hs : s.Inv) (hconfig : t.config = s.config) (hmem : t.mem = s.mem)
    (hcond : t.condLegal = s.condLegal) (hhold : t.holdLegal = s.holdLegal) : t.Inv :=
  ⟨hconfig ▸ hs.config, hmem ▸ hs.memory, hcond ▸ hs.cond, hhold ▸ hs.hold⟩

theorem apply_cycle_inv {y z : System} (hinv : y.Inv) (hz : y.apply .cycle = some z) : z.Inv := by
  obtain ⟨t, ht, rfl⟩ := apply_cycle hz
  obtain ⟨k, hk, hk'⟩ := (step_advances ht).input
  refine ⟨stepKeepsInvariant y.core t hinv.core ht, ?_, nofun⟩
  show y.supplied = t.taken ++ t.inq
  rw [hinv.input, hk, hk', List.append_assoc]

theorem apply_inv {y z : System} {e : Event} (hinv : y.Inv) (hz : y.apply e = some z) : z.Inv := by
  obtain ⟨hcore, hinput, hunstarted⟩ := hinv
  cases e with
  | cycle => exact apply_cycle_inv ⟨hcore, hinput, hunstarted⟩ hz
  | deliver u =>
    cases hz
    refine ⟨hcore.of_eq rfl rfl rfl rfl, ?_, hunstarted⟩
    show y.supplied ++ [u] = y.core.taken ++ (y.core.inq ++ [u])
    rw [hinput, List.append_assoc]
  | raiseStop | lowerStop =>
    cases hz
    exact ⟨hcore.of_eq rfl rfl rfl rfl, hinput, hunstarted⟩
  | hostWrite a v =>
    simp only [System.apply] at hz
    split_ifs at hz
    cases hz
    exact ⟨⟨hcore.config, State.memWrite_wf hcore.memory a v, hcore.cond, hcore.hold⟩, hinput, hunstarted⟩
  | hostSetPc v =>
    simp only [System.apply, Bool.or_eq_true] at hz
    split_ifs at hz with hport
    cases hz
    have hhold := (hunstarted (Bool.eq_false_of_not_eq_true fun h => hport (.inl h))).1
    exact ⟨⟨hcore.config, hcore.memory, hcore.cond, holdLegal_of_none hhold⟩, hinput, hunstarted⟩
  | reset =>
    simp only [System.apply] at hz
    split_ifs at hz
    cases hz
    exact ⟨launch_inv y.core.inq y.core.stopReq hcore.config, rfl, fun _ => ⟨rfl, rfl⟩⟩

/-- Settles O60: by induction on the events, each one `apply_inv`. -/
theorem everyRunKeepsInvariant : Obligations.EveryRunKeepsInvariant := by
  unfold Obligations.EveryRunKeepsInvariant
  intro es
  induction es with
  | nil =>
    intro y z hinv hz
    cases hz
    exact hinv
  | cons e rest ih =>
    intro y z hinv hz
    rw [System.run] at hz
    cases h : y.apply e with
    | none =>
      rw [h] at hz
      cases hz
    | some x =>
      rw [h] at hz
      exact ih x z (apply_inv hinv h) hz

end Sys2Proof.Machine
end
